-- ==== Sys2Proof/Word.lean ====
section
/-! DEFINITION. The word types of the generator (00_scope.md section 6.1). -/

namespace Sys2Proof

/-- A byte, the addressable unit of every space (20_memory.md R43). -/
abbrev Byte := BitVec 8

/-- `W32`, a 32-bit unsigned word. -/
abbrev W32 := BitVec 32

/-- `V128`, an ordered 4-tuple of words: `w0` is word 0, the "low" word, written first. -/
structure V128 where
  w0 : W32
  w1 : W32
  w2 : W32
  w3 : W32
  deriving DecidableEq, Repr, Inhabited

end Sys2Proof
end

