-- ==== Sys2Proof/Config.lean ====
section
/-! DEFINITION. What an implementation fixes (00_scope.md R7) and the free values: the values the spec leaves open
after which the machine goes on. The other open parameter of R7, `SIGMA`, is no constant here: it is whatever sixteen
bytes stand in the space CONST. -/

namespace Sys2Proof

/-- The open parameters of an implementation that are not bytes of memory (R7).
`bcw` is `BCW`, the width in bits of the block count. -/
structure Config where
  bcw : Nat
  deriving DecidableEq, Repr

/-- The default of R7 and of 92_eei_decisions.md D6: a block count of 64 bits. No statement rests on it. -/
def Config.standard : Config := { bcw := 64 }

/-- FREE VALUE (log 5, log 13). What the 128-bit datapath register number `reg` holds after a completed `GEN` or after a
reset, where the spec says "unspecified" (70_reset_and_hazards.md R243, R230; 93_implementation_defined.md U13, U14).
`ix` is the state's plain counter and `old` what the register held, so that keeping, clearing and scrambling the
register are all among its values. -/
opaque Config.residueVec (reg : Nat) (ix : Nat) (old : V128) : V128

/-- FREE VALUE (log 5, log 13). As `residueVec`, for the control registers that hold a number: `reg` 0 is `REM`, 1 is `OFF`,
2 is `RC`, 3 is `SUB`. The register keeps its width, whatever this number is. -/
opaque Config.residueNum (reg : Nat) (ix : Nat) (old : Nat) : Nat

/-- FREE VALUE (log 13). What the byte of `OUT` at offset `off` holds after a reset during a run (R231, U16). -/
opaque Config.residueByte (off : Nat) (ix : Nat) (old : Byte) : Byte

end Sys2Proof
end

