-- ==== Sys2Proof/Syntax.lean ====
section
/-! DEFINITION. The operations of the generator: one constructor per row of spec/opcode_table.json
(30_encoding.md R70). -/

namespace Sys2Proof

/-- The two legal lane masks of a lane micro-operation (30_encoding.md R74), spelled as R80 spells them:
`l0` is mask `0b001` (serial mode), `l012` is mask `0b111` (multi-lane mode). -/
inductive LaneMask where
  | l0
  | l012
  deriving DecidableEq, Repr

/-- One host command and nine datapath micro-operations (R70). -/
inductive Instr where
  /-- `GEN n`, the host command (43_sequencer.md R160, R170). -/
  | gen (n : Nat)
  /-- `LDWS` (41_lanes_and_block.md R120). -/
  | ldws
  /-- `LINIT lm` (41_lanes_and_block.md R122). -/
  | linit (lm : LaneMask)
  /-- `QR lm` (40_mixer.md R100). -/
  | qr (lm : LaneMask)
  /-- `DIAG lm` (40_mixer.md R104). -/
  | diag (lm : LaneMask)
  /-- `UNDIAG lm` (40_mixer.md R105). -/
  | undiag (lm : LaneMask)
  /-- `FFADD lm` (41_lanes_and_block.md R124). -/
  | ffadd (lm : LaneMask)
  /-- `XORST lm` (42_combine_and_counter.md R140). -/
  | xorst (lm : LaneMask)
  /-- `CTRINC` (42_combine_and_counter.md R144). -/
  | ctrinc
  /-- `CTRWR` (42_combine_and_counter.md R147). -/
  | ctrwr
  deriving DecidableEq, Repr

/-- The two formats (30_encoding.md R71). A decoder tells them apart by where the word comes from. -/
inductive Format where
  /-- Format CMD: the `BCW + 8` bit word the host presents at the command port. -/
  | cmd
  /-- Format U: the 8-bit micro-operation word the sequencer presents to the datapath. -/
  | u
  deriving DecidableEq, Repr

/-- The format an operation is encoded in (R70). -/
def Instr.format : Instr → Format
  | .gen _ => .cmd
  | .ldws => .u
  | .linit _ => .u
  | .qr _ => .u
  | .diag _ => .u
  | .undiag _ => .u
  | .ffadd _ => .u
  | .xorst _ => .u
  | .ctrinc => .u
  | .ctrwr => .u

end Sys2Proof
end

