-- ==== Sys2Proof/Machine/State.lean ====
section
/-! DEFINITION. The state of the generator and of the memory its host owns (10_state.md R10 to R26, 20_memory.md R40),
as plain data; how a step can stop; the state after reset. -/

namespace Sys2Proof.Machine

/-- Faults. There are none: "This core raises no errors" (60_exceptions.md R200, R205), so the type is empty and no step
can answer one. -/
inductive Fault where
  deriving DecidableEq, Repr

/-- Refusals: the situations to which the model gives no meaning (60_exceptions.md R204 and 93_implementation_defined.md
Part 2). Every one is safe: the model stops where the spec says it gives no outcome. -/
inductive Refusal where
  /-- Raised by an arm of `exec` whose instruction has no meaning yet. No arm does: every instruction has one. -/
  | notModelled (mnemonic : String)
  /-- Raised by `GEN n` when `IN` or `OUT` is not exactly `64n` bytes (R204 V1, R42). Safe. -/
  | wrongBufferSize
  /-- Raised by `GEN n` when `IN` and `OUT` are neither the same bytes nor disjoint (R204 V2, R50). Safe. -/
  | partialOverlap
  /-- Raised by `GEN n` when `OUT` shares a byte with `WS`, `CONST` or `INC`, or `WS[32..47]` with `IN`, `CONST` or `INC`
  (R204 V3, R51). Safe. -/
  | forbiddenOverlap
  /-- Raised by `GEN n` executed while `BUSY` is 1 (R204 V5, R161). A step never reaches it: it reads the port only when
  idle. Safe. -/
  | commandWhileBusy
  /-- Raised by `GEN n` and by `LDWS` when `INC` does not hold the increment vector (R204 V6, R13, R120). Safe. -/
  | wrongIncrement
  /-- Raised by a step whose command word is reserved (R204 V7, R78 (a)). Safe. -/
  | reservedCommand
  /-- Raised by a step if the word the sequencer issues were reserved (R78 (b)); that never happens (R165, R166). Safe. -/
  | reservedMicroOp
  /-- Raised by a step at a position outside 43_sequencer.md R179, which no run reaches (93_implementation_defined.md U12).
  Safe. -/
  | unreachablePosition
  deriving DecidableEq, Repr

/-- The phases of the sequencer, the contents of `PH` (30_encoding.md R76); `phaseCode` in Ops.lean gives their codes. Codes 6 and
7 are never reached and have no constructor (43_sequencer.md R179 allows that). -/
inductive Phase where
  | idle
  | load
  | init
  | round
  | emit
  | writeback
  deriving DecidableEq, Repr

/-- The five address spaces (20_memory.md R40). -/
inductive Space where
  | const
  | inc
  | ws
  | inp
  | out
  deriving DecidableEq, Repr

/-- Where the host has placed the spaces in its memory, and how long it has made the two buffers. DESIGN CHOICE (log 1):
the spec's spaces are abstract, and sizes and overlap (R42, R50, R51) are what a launch is judged by. -/
structure Placement where
  constBase : Nat
  incBase : Nat
  wsBase : Nat
  inBase : Nat
  inSize : Nat
  outBase : Nat
  outSize : Nat
  deriving DecidableEq, Repr

/-- The placement after reset. DESIGN CHOICE (log 19): `CONST`, `INC`, `WS` one after the other from address 0, then one
empty buffer that is both `IN` and `OUT`. -/
def Placement.reset : Placement :=
  { constBase := 0, incBase := 16, wsBase := 32, inBase := 80, inSize := 0, outBase := 80, outSize := 0 }

/-- The host's memory: (address, byte) pairs, in the canonical form of `Memory.wf`. -/
abbrev Memory := List Host.Cell

/-- One lane group: its four working vectors (10_state.md R16) and their saved copies (R17). -/
structure Lane where
  a : V128
  b : V128
  c : V128
  d : V128
  sa : V128
  sb : V128
  sc : V128
  sd : V128
  deriving DecidableEq, Repr

/-- The state of the generator, its command port and the memory it reaches. -/
structure State where
  /-- The implementation's parameters; no step writes them (R7; log 2). -/
  cfg : Config
  /-- Where the host has placed the five spaces (log 1); no step writes it. -/
  place : Placement
  /-- The contents of the spaces (20_memory.md R40). -/
  mem : Memory
  /-- The command word the host presents at the command port, if it presents one (43_sequencer.md R161; log 6). -/
  port : Option Nat
  /-- `SIGMA` (10_state.md R11, R12). -/
  sigma : V128
  /-- `K0`, key-low (R14). -/
  k0 : V128
  /-- `K1`, key-high (R14). -/
  k1 : V128
  /-- `CN`, counter and nonce (R15). -/
  cn : V128
  /-- Lane group 0 (R16, R17). -/
  lane0 : Lane
  /-- Lane group 1 (R16, R17). -/
  lane1 : Lane
  /-- Lane group 2 (R16, R17). -/
  lane2 : Lane
  /-- `REM`, an unsigned number of `BCW` bits (R18; log 15). -/
  rem : Nat
  /-- `OFF`, an unsigned number of `BCW + 6` bits (R19; log 15). -/
  off : Nat
  /-- `PH`, 3 bits (R20); what the register holds is `phRegister` in Ops.lean. -/
  ph : Phase
  /-- `RC`, 4 bits (R20). -/
  rc : BitVec 4
  /-- `SUB`, 3 bits (R20). -/
  sub : BitVec 3
  /-- `DONE` (R21). `BUSY` is a function of `PH` (`busy` in Flags.lean). -/
  done : Bool
  /-- The MODEL's own counter, which the free values are drawn with (log 5, log 18). -/
  freeIx : Nat
  deriving DecidableEq, Repr

/-- The value the log names for a vector register at reset. DESIGN CHOICE (log 4): the spec gives none (R25). -/
def resetVec : V128 := { w0 := 0, w1 := 0, w2 := 0, w3 := 0 }

/-- A lane group at reset. DESIGN CHOICE (log 4). -/
def resetLane : Lane :=
  { a := resetVec, b := resetVec, c := resetVec, d := resetVec, sa := resetVec, sb := resetVec, sc := resetVec, sd := resetVec }

/-- The generator right after reset (10_state.md R25, 70_reset_and_hazards.md R230): `PH` is `IDLE`, so `BUSY` is 0, and `DONE`
is 0. Every other value is the log's: registers 0 (log 4), the placement (log 19), no command presented (log 6). -/
def State.reset : State :=
  { cfg := Config.standard
    place := Placement.reset
    mem := []
    port := none
    sigma := resetVec
    k0 := resetVec
    k1 := resetVec
    cn := resetVec
    lane0 := resetLane
    lane1 := resetLane
    lane2 := resetLane
    rem := 0
    off := 0
    ph := .idle
    rc := 0
    sub := 0
    done := false
    freeIx := 0 }

end Sys2Proof.Machine
end

