-- ==== Sys2Proof/Machine/Vec.lean ====
section
/-! DEFINITION. The word and vector operators (00_scope.md section 6.2), the byte image of a vector (20_memory.md R45) and
the constant `ONE` (10_state.md R13). -/

namespace Sys2Proof.Machine

/-- `rotl32(x, n)`, circular left rotation, `0 < n < 32`. -/
def rotl32 (x : W32) (n : Nat) : W32 := (x <<< n) ||| (x >>> (32 - n))

/-- `V.w[i]`, the index taken modulo 4. -/
def vword (v : V128) (i : Nat) : W32 :=
  match i % 4 with
  | 0 => v.w0
  | 1 => v.w1
  | 2 => v.w2
  | _ => v.w3

/-- `V +32x4 U`: word by word modulo 2^32, no carry crosses a word boundary. -/
def add32x4 (v u : V128) : V128 :=
  { w0 := v.w0 + u.w0, w1 := v.w1 + u.w1, w2 := v.w2 + u.w2, w3 := v.w3 + u.w3 }

/-- `V ^ U`, word by word. -/
def xor32x4 (v u : V128) : V128 :=
  { w0 := v.w0 ^^^ u.w0, w1 := v.w1 ^^^ u.w1, w2 := v.w2 ^^^ u.w2, w3 := v.w3 ^^^ u.w3 }

/-- `rotl32x4(V, n)`, word by word. -/
def rotl32x4 (v : V128) (n : Nat) : V128 :=
  { w0 := rotl32 v.w0 n, w1 := rotl32 v.w1 n, w2 := rotl32 v.w2 n, w3 := rotl32 v.w3 n }

/-- `rotw(V, k)`: word `i` is `V.w[(i + k) mod 4]` (40_mixer.md R103). -/
def rotw (v : V128) (k : Nat) : V128 :=
  { w0 := vword v k, w1 := vword v (1 + k), w2 := vword v (2 + k), w3 := vword v (3 + k) }

/-- `V.q[0]`, the low 64-bit lane: `{w[1], w[0]}`. -/
def q0 (v : V128) : BitVec 64 := v.w1 ++ v.w0

/-- `V.q[1]`, the high 64-bit lane: `{w[3], w[2]}`. -/
def q1 (v : V128) : BitVec 64 := v.w3 ++ v.w2

/-- The vector whose 64-bit lanes are given. -/
def ofQ (lo hi : BitVec 64) : V128 :=
  { w0 := lo.extractLsb' 0 32, w1 := lo.extractLsb' 32 32, w2 := hi.extractLsb' 0 32, w3 := hi.extractLsb' 32 32 }

/-- `V +64x2 U`: lane by lane modulo 2^64. -/
def add64x2 (v u : V128) : V128 := ofQ (q0 v + q0 u) (q1 v + q1 u)

/-- `ONE`, the constant `(1, 0, 0, 0)` (10_state.md R13). -/
def one : V128 := { w0 := 1, w1 := 0, w2 := 0, w3 := 0 }

/-- The four bytes of a word, least significant first (20_memory.md R45). -/
def wordBytes (w : W32) : List Byte :=
  [w.extractLsb' 0 8, w.extractLsb' 8 8, w.extractLsb' 16 8, w.extractLsb' 24 8]

/-- `bytes(V)`: word `i` at offsets `4i .. 4i+3` (R45). -/
def vecBytes (v : V128) : List Byte :=
  wordBytes v.w0 ++ wordBytes v.w1 ++ wordBytes v.w2 ++ wordBytes v.w3

/-- The word whose bytes stand at offsets `o .. o+3` of a byte string (R45). -/
def bytesWord (bs : List Byte) (o : Nat) : W32 :=
  bs.getD (o + 3) 0 ++ bs.getD (o + 2) 0 ++ bs.getD (o + 1) 0 ++ bs.getD o 0

/-- `vec(B)`, the inverse of `bytes` on 16 bytes (R45). -/
def bytesVec (bs : List Byte) : V128 :=
  { w0 := bytesWord bs 0, w1 := bytesWord bs 4, w2 := bytesWord bs 8, w3 := bytesWord bs 12 }

/-- `x ^ y` on byte strings. -/
def xorBytes (x y : List Byte) : List Byte := List.zipWith (fun a b => a ^^^ b) x y

end Sys2Proof.Machine
end

