-- ==== Sys2Proof/Machine/Ops.lean ====
section
/-! DEFINITION. The named operations over memory and registers. The generator has no exception to take and none to return
from: it "raises no synchronous exception of any kind" and has no trap entry or return (60_exceptions.md R200, R205, R206), so
there is no such operation here. -/

namespace Sys2Proof.Machine

/-! Memory: one byte-addressed space, written through one operation that keeps the canonical form. -/

/-- What an address that no entry lists reads as. DESIGN CHOICE (log 3): 0, but the image of `ONE` where `INC` stands after
reset: the spec gives that vector completely ("fixed", 10_state.md R13). -/
def Memory.blank (a : Nat) : Byte := if a = Placement.reset.incBase then 1 else 0

/-- The byte at an address. -/
def Memory.read : Memory → Nat → Byte
  | [], a => Memory.blank a
  | (x, v) :: t, a => if a = x then v else Memory.read t a

/-- Puts an entry in its place by address, over an entry of the same address. -/
def Memory.insert : Memory → Nat → Byte → Memory
  | [], a, b => [(a, b)]
  | (x, v) :: t, a, b =>
    if a < x then (a, b) :: (x, v) :: t
    else if a = x then (a, b) :: t
    else (x, v) :: Memory.insert t a b

/-- Takes away what an address holds, so that it reads as an unlisted one. -/
def Memory.erase (m : Memory) (a : Nat) : Memory := m.filter (fun c => c.1 != a)

/-- Writes a byte. Writing what an unlisted address reads as removes the entry. -/
def Memory.write (m : Memory) (a : Nat) (b : Byte) : Memory :=
  if b = Memory.blank a then Memory.erase m a else Memory.insert m a b

/-- The `n` bytes from address `a`, lowest first. -/
def Memory.readBytes (m : Memory) (a : Nat) : Nat → List Byte
  | 0 => []
  | n + 1 => Memory.read m a :: Memory.readBytes m (a + 1) n

/-- Stores a byte string from address `a`, lowest first. -/
def Memory.writeBytes (m : Memory) (a : Nat) : List Byte → Memory
  | [] => m
  | b :: bs => Memory.writeBytes (Memory.write m a b) (a + 1) bs

/-- The addresses of a list of entries rise strictly. -/
def Memory.rising : Memory → Bool
  | [] => true
  | [_] => true
  | c :: c' :: t => decide (c.1 < c'.1) && Memory.rising (c' :: t)

/-- The canonical form: addresses strictly rising, no entry equal to what an unlisted address reads as. -/
def Memory.wf (m : Memory) : Bool := Memory.rising m && m.all (fun c => c.2 != Memory.blank c.1)

/-! The spaces (20_memory.md R40): an access is at an offset from where the host placed the space (log 1). -/

/-- The address of offset 0 of a space. -/
def spaceBase (p : Placement) : Space → Nat
  | .const => p.constBase
  | .inc => p.incBase
  | .ws => p.wsBase
  | .inp => p.inBase
  | .out => p.outBase

/-- The size of a space in bytes (R40). -/
def spaceSize (p : Placement) : Space → Nat
  | .const => 16
  | .inc => 16
  | .ws => 48
  | .inp => p.inSize
  | .out => p.outSize

/-- `MemRead(space, off, n)` (00_scope.md section 6.3). -/
def memRead (s : State) (sp : Space) (off n : Nat) : List Byte :=
  Memory.readBytes s.mem (spaceBase s.place sp + off) n

/-- `MemWrite(space, off, n, v)`, `n` being the length of `v` (00_scope.md section 6.3). -/
def memWrite (s : State) (sp : Space) (off : Nat) (v : List Byte) : State :=
  { s with mem := Memory.writeBytes s.mem (spaceBase s.place sp + off) v }

/-! The numbered control registers keep their widths (10_state.md R18, R19). -/

/-- `REM <- v`: `BCW` bits. -/
def setRem (s : State) (v : Nat) : State := { s with rem := v % 2 ^ s.cfg.bcw }

/-- `OFF <- v`: `BCW + 6` bits. -/
def setOff (s : State) (v : Nat) : State := { s with off := v % 2 ^ (s.cfg.bcw + 6) }

/-- `pos <- (PH, RC, SUB)` (10_state.md R20). -/
def setPos (s : State) (ph : Phase) (rc : BitVec 4) (sub : BitVec 3) : State :=
  { s with ph := ph, rc := rc, sub := sub }

/-- The code of a phase in the 3-bit register `PH` (30_encoding.md R76). -/
def phaseCode : Phase → BitVec 3
  | .idle => 0
  | .load => 1
  | .init => 2
  | .round => 3
  | .emit => 4
  | .writeback => 5

/-- The phase a code of `PH` names; codes 6 and 7 are unused (R76). -/
def phaseOfCode (c : BitVec 3) : Option Phase :=
  match c.toNat with
  | 0 => some .idle
  | 1 => some .load
  | 2 => some .init
  | 3 => some .round
  | 4 => some .emit
  | 5 => some .writeback
  | _ => none

/-- The three bits of the register `PH` (10_state.md R20). -/
def phRegister (s : State) : BitVec 3 := phaseCode s.ph

/-! The outcome of what follows an operation. -/

/-- Goes on with `f` when an operation answered a next state. -/
def andThen (o : Host.Outcome State Fault Refusal) (f : State → Host.Outcome State Fault Refusal) :
    Host.Outcome State Fault Refusal :=
  match o with
  | .next s => f s
  | .fault r => .fault r
  | .refused r => .refused r

/-! Registers the spec leaves unspecified (70_reset_and_hazards.md R230, R243; log 5, log 13). -/

/-- A lane group whose eight vectors hold free values; `base` is the number of its first register. -/
def freeLane (base ix : Nat) (l : Lane) : Lane :=
  { a := Config.residueVec base ix l.a
    b := Config.residueVec (base + 1) ix l.b
    c := Config.residueVec (base + 2) ix l.c
    d := Config.residueVec (base + 3) ix l.d
    sa := Config.residueVec (base + 4) ix l.sa
    sb := Config.residueVec (base + 5) ix l.sb
    sc := Config.residueVec (base + 6) ix l.sc
    sd := Config.residueVec (base + 7) ix l.sd }

/-- `K0`, `K1`, `CN`, the lane registers, the saved copies, `REM` and `OFF` hold free values: the registers R243 and
93_implementation_defined.md U14 leave unspecified after a completed `GEN`. -/
def freeRegisters (s : State) : State :=
  setOff (setRem
    { s with
      k0 := Config.residueVec 0 s.freeIx s.k0
      k1 := Config.residueVec 1 s.freeIx s.k1
      cn := Config.residueVec 2 s.freeIx s.cn
      lane0 := freeLane 3 s.freeIx s.lane0
      lane1 := freeLane 11 s.freeIx s.lane1
      lane2 := freeLane 19 s.freeIx s.lane2
      freeIx := s.freeIx + 1 }
    (Config.residueNum 0 s.freeIx s.rem)) (Config.residueNum 1 s.freeIx s.off)

end Sys2Proof.Machine
end

