-- ==== Sys2Proof/Machine/Operands.lean ====
section
/-! DEFINITION. The operand forms: the lane mask of a lane micro-operation (30_encoding.md R73, R74, R77) and the buffers of
`GEN n`, with the contract a launch is judged by (60_exceptions.md R204). -/

namespace Sys2Proof.Machine

/-! `for k in lm` -/

/-- Lane group `k`, `k` in {0, 1, 2}. -/
def getLane (s : State) : Nat → Lane
  | 0 => s.lane0
  | 1 => s.lane1
  | _ => s.lane2

/-- The lane groups a mask selects, ascending. -/
def laneIndices : LaneMask → List Nat
  | .l0 => [0]
  | .l012 => [0, 1, 2]

/-- `popcount(lm)`. -/
def laneCount : LaneMask → Nat
  | .l0 => 1
  | .l012 => 3

/-- `for k in lm` for an operation on the registers of lane group `k` alone: the groups outside the mask keep theirs. The
order does not matter, since the groups share no register (40_mixer.md R109). -/
def mapLanes (lm : LaneMask) (f : Nat → Lane → Lane) (s : State) : State :=
  match lm with
  | .l0 => { s with lane0 := f 0 s.lane0 }
  | .l012 => { s with lane0 := f 0 s.lane0, lane1 := f 1 s.lane1, lane2 := f 2 s.lane2 }

/-- `for k in lm, ascending` for an operation that reaches memory. -/
def overLanes (lm : LaneMask) (f : Nat → State → State) (s : State) : State :=
  (laneIndices lm).foldl (fun t k => f k t) s

/-! The buffers of a launch -/

/-- Two ranges of addresses share a byte. -/
def overlaps (base1 size1 base2 size2 : Nat) : Bool :=
  decide (max base1 base2 < min (base1 + size1) (base2 + size2))

/-- V1: `IN` or `OUT` is not exactly `64n` bytes (R42). -/
def wrongSizes (p : Placement) (n : Nat) : Bool :=
  p.inSize != 64 * n || p.outSize != 64 * n

/-- V2: `IN` and `OUT` overlap and do not start at the same address (R50). -/
def partlyOverlapping (p : Placement) : Bool :=
  overlaps p.inBase p.inSize p.outBase p.outSize && p.inBase != p.outBase

/-- V3: an overlap that R51 forbids. -/
def forbiddenOverlaps (p : Placement) : Bool :=
  overlaps p.outBase p.outSize p.wsBase 48 ||
  overlaps p.outBase p.outSize p.constBase 16 ||
  overlaps p.outBase p.outSize p.incBase 16 ||
  overlaps (p.wsBase + 32) 16 p.inBase p.inSize ||
  overlaps (p.wsBase + 32) 16 p.constBase 16 ||
  overlaps (p.wsBase + 32) 16 p.incBase 16

/-- The sixteen bytes of `INC` are the image of `ONE` (10_state.md R13). -/
def incrementHeld (s : State) : Bool := memRead s .inc 0 16 == vecBytes one

/-- The first violation of the contract that a launch of `GEN n` shows (R204). Their order is the model's (log 7): no row takes
precedence (R202). -/
def launchViolation (s : State) (n : Nat) : Option Refusal :=
  if wrongSizes s.place n then some .wrongBufferSize
  else if partlyOverlapping s.place then some .partialOverlap
  else if forbiddenOverlaps s.place then some .forbiddenOverlap
  else if incrementHeld s then none
  else some .wrongIncrement

end Sys2Proof.Machine
end

