-- ==== Sys2Proof/Machine/Lanes.lean ====
section
/-! DEFINITION. The 3-lane state mixer (41_lanes_and_block.md): `LDWS`, `LINIT`, `FFADD`, and the serialisation of a lane
group. -/

namespace Sys2Proof.Machine

/-- `LDWS` (R120). The comparison of `INC` is the model's treatment of a host that breaks the contract (V6); the hardware makes
none. -/
def execLdws (s : State) : Host.Outcome State Fault Refusal :=
  if incrementHeld s then
    .next { s with
      sigma := bytesVec (memRead s .const 0 16)
      k0 := bytesVec (memRead s .ws 0 16)
      k1 := bytesVec (memRead s .ws 16 16)
      cn := bytesVec (memRead s .ws 32 16) }
  else .refused .wrongIncrement

/-- `CN` with `ONE` added `k` times, as 64-bit numbers (R122). -/
def cnPlus (cn : V128) : Nat → V128
  | 0 => cn
  | k + 1 => add64x2 (cnPlus cn k) one

/-- A lane group initialised from four vectors, which are saved as well (R122). -/
def initLane (a b c d : V128) : Lane :=
  { a := a, b := b, c := c, d := d, sa := a, sb := b, sc := c, sd := d }

/-- `LINIT lm` (R122). -/
def execLinit (lm : LaneMask) (s : State) : Host.Outcome State Fault Refusal :=
  .next (mapLanes lm (fun k _ => initLane s.sigma s.k0 s.k1 (cnPlus s.cn k)) s)

/-- The feed-forward add on one lane group: word by word, the saved copies unchanged (R124). -/
def ffaddLane (l : Lane) : Lane :=
  { l with a := add32x4 l.a l.sa, b := add32x4 l.b l.sb, c := add32x4 l.c l.sc, d := add32x4 l.d l.sd }

/-- `FFADD lm` (R124). -/
def execFfadd (lm : LaneMask) (s : State) : Host.Outcome State Fault Refusal :=
  .next (mapLanes lm (fun _ l => ffaddLane l) s)

/-- `ser(k)`: the four vectors of a lane group in key-vector order, 64 bytes (R126). -/
def serLane (l : Lane) : List Byte :=
  vecBytes l.a ++ vecBytes l.b ++ vecBytes l.c ++ vecBytes l.d

end Sys2Proof.Machine
end

