-- ==== Sys2Proof/Machine/Combine.lean ====
section
/-! DEFINITION. The XOR combiner and the 64-bit counter (42_combine_and_counter.md): `XORST`, `CTRINC`, `CTRWR`. -/

namespace Sys2Proof.Machine

/-- The offset in `IN` and `OUT` of the slice of lane group `k` (R140). -/
def sliceOff (s : State) (k : Nat) : Nat := s.off + 64 * k

/-- Combines the slice of lane group `k`: the 64 bytes of `IN` are read, then the 64 bytes of `OUT` at the same offset are
written (R140). No bounds are checked (R140; log 21). -/
def combineLane (k : Nat) (s : State) : State :=
  memWrite s .out (sliceOff s k) (xorBytes (memRead s .inp (sliceOff s k) 64) (serLane (getLane s k)))

/-- `XORST lm` (R140): the lane groups in ascending order. -/
def execXorst (lm : LaneMask) (s : State) : Host.Outcome State Fault Refusal :=
  .next (overLanes lm combineLane s)

/-- `CTRINC` (R144). -/
def execCtrinc (s : State) : Host.Outcome State Fault Refusal :=
  .next { s with cn := add64x2 s.cn one }

/-- `CTRWR` (R147). -/
def execCtrwr (s : State) : Host.Outcome State Fault Refusal :=
  .next (memWrite s .ws 32 (vecBytes s.cn))

end Sys2Proof.Machine
end

