-- ==== Sys2Proof/Machine/Flags.lean ====
section
/-! DEFINITION. The two status flags (10_state.md R21). The generator has no condition codes: no carry and no overflow of any
addition is kept (R21, 60_exceptions.md R203). -/

namespace Sys2Proof.Machine

/-- `BUSY` is 1 exactly when `PH` is not `IDLE`. -/
def busy (s : State) : Bool := s.ph != .idle

/-- `DONE <- v`. -/
def setDone (s : State) (v : Bool) : State := { s with done := v }

end Sys2Proof.Machine
end

