-- ==== Sys2Proof/Machine/Command.lean ====
section
/-! DEFINITION. The host command `GEN` as the sequencer takes it: acceptance (43_sequencer.md R170) of a launch that keeps the
contract (60_exceptions.md R204). The blocks are produced by the steps that follow (R172 to R177); that they amount to the
function of R160 is a statement (log 10). -/

namespace Sys2Proof.Machine

/-- Acceptance (R170): `REM <- n`, `OFF <- 0`, `DONE <- 0`, the position `LOAD`, `RC` unchanged. -/
def acceptGen (n : Nat) (s : State) : State :=
  setPos (setDone (setOff (setRem s n) 0) false) .load s.rc 0

/-- `GEN n`: accepted when the generator is idle (R161) and no row of R204 applies, refused otherwise. -/
def execGen (n : Nat) (s : State) : Host.Outcome State Fault Refusal :=
  if busy s then .refused .commandWhileBusy
  else match launchViolation s n with
    | some r => .refused r
    | none => .next (acceptGen n s)

end Sys2Proof.Machine
end

