-- ==== Sys2Proof/Machine/Mixer.lean ====
section
/-! DEFINITION. The quarter-round datapath (40_mixer.md): `QR`, `DIAG`, `UNDIAG`. -/

namespace Sys2Proof.Machine

/-- One word of each of the four vectors of a lane group. -/
structure WordGroup where
  a : W32
  b : W32
  c : W32
  d : W32
  deriving DecidableEq, Repr

/-- The word-level quarter round `qr` (R101), its four lines in order. -/
def qrWord (a b c d : W32) : WordGroup :=
  let a1 := a + b
  let d1 := rotl32 (d ^^^ a1) 16
  let c1 := c + d1
  let b1 := rotl32 (b ^^^ c1) 12
  let a2 := a1 + b1
  let d2 := rotl32 (d1 ^^^ a2) 8
  let c2 := c1 + d2
  let b2 := rotl32 (b1 ^^^ c2) 7
  { a := a2, b := b2, c := c2, d := d2 }

/-- The four vectors of a lane group from its four word positions; the saved copies stay. -/
def laneOfWords (l : Lane) (g0 g1 g2 g3 : WordGroup) : Lane :=
  { l with
    a := { w0 := g0.a, w1 := g1.a, w2 := g2.a, w3 := g3.a }
    b := { w0 := g0.b, w1 := g1.b, w2 := g2.b, w3 := g3.b }
    c := { w0 := g0.c, w1 := g1.c, w2 := g2.c, w3 := g3.c }
    d := { w0 := g0.d, w1 := g1.d, w2 := g2.d, w3 := g3.d } }

/-- `QRv`, the quarter round on one lane group: `qr` at each word position (R100). -/
def qrLane (l : Lane) : Lane :=
  laneOfWords l (qrWord l.a.w0 l.b.w0 l.c.w0 l.d.w0) (qrWord l.a.w1 l.b.w1 l.c.w1 l.d.w1)
    (qrWord l.a.w2 l.b.w2 l.c.w2 l.d.w2) (qrWord l.a.w3 l.b.w3 l.c.w3 l.d.w3)

/-- Columns to diagonals on one lane group (R104). -/
def diagLane (l : Lane) : Lane :=
  { l with b := rotw l.b 1, c := rotw l.c 2, d := rotw l.d 3 }

/-- Diagonals back to columns on one lane group (R105). -/
def undiagLane (l : Lane) : Lane :=
  { l with b := rotw l.b 3, c := rotw l.c 2, d := rotw l.d 1 }

/-- `QR lm` (R100). -/
def execQr (lm : LaneMask) (s : State) : Host.Outcome State Fault Refusal :=
  .next (mapLanes lm (fun _ l => qrLane l) s)

/-- `DIAG lm` (R104). -/
def execDiag (lm : LaneMask) (s : State) : Host.Outcome State Fault Refusal :=
  .next (mapLanes lm (fun _ l => diagLane l) s)

/-- `UNDIAG lm` (R105). -/
def execUndiag (lm : LaneMask) (s : State) : Host.Outcome State Fault Refusal :=
  .next (mapLanes lm (fun _ l => undiagLane l) s)

end Sys2Proof.Machine
end

