-- ==== Sys2Proof/Machine/Dispatch.lean ====
section
/-! DEFINITION. One arm per operation, each one direct call of its meaning. -/

namespace Sys2Proof.Machine

def exec (i : Instr) (s : State) : Host.Outcome State Fault Refusal :=
  match i with
  | .gen n => Sys2Proof.Machine.execGen n s
  | .ldws => Sys2Proof.Machine.execLdws s
  | .linit lm => Sys2Proof.Machine.execLinit lm s
  | .qr lm => Sys2Proof.Machine.execQr lm s
  | .diag lm => Sys2Proof.Machine.execDiag lm s
  | .undiag lm => Sys2Proof.Machine.execUndiag lm s
  | .ffadd lm => Sys2Proof.Machine.execFfadd lm s
  | .xorst lm => Sys2Proof.Machine.execXorst lm s
  | .ctrinc => Sys2Proof.Machine.execCtrinc s
  | .ctrwr => Sys2Proof.Machine.execCtrwr s

end Sys2Proof.Machine
end

