-- ==== Sys2Proof/WellFormed.lean ====
section
/-! DEFINITION. Which terms of `Instr` are operations of an implementation: the block count of `GEN` is an unsigned
`BCW`-bit number (30_encoding.md R72, R77). The lane masks need no check: `LaneMask` has the two legal ones only (R74). -/

namespace Sys2Proof

/-- The check, as a Bool so that it can be evaluated. -/
def Instr.wellFormed (cfg : Config) : Instr → Bool
  | .gen n => decide (n < 2 ^ cfg.bcw)
  | .ldws => true
  | .linit _ => true
  | .qr _ => true
  | .diag _ => true
  | .undiag _ => true
  | .ffadd _ => true
  | .xorst _ => true
  | .ctrinc => true
  | .ctrwr => true

end Sys2Proof
end

