-- ==== Sys2Proof/Decode.lean ====
section
/-! DEFINITION. Decoding and encoding of the two formats (30_encoding.md R71 to R78, R82). Decoding is total: a reserved
word is refused with the reason it is reserved (R78). -/

namespace Sys2Proof

/-- Why a word is reserved (R78). -/
inductive Reserved where
  /-- A command word whose `cop` is not `0x01` (R78 (a)). -/
  | cop
  /-- A micro-operation word whose `uop` is `0x0` or `0xA` to `0xF` (R78 (b)). -/
  | uop
  /-- A micro-operation word with bit 3, `z`, set (R78 (b)). -/
  | zBit
  /-- A micro-operation word whose lane mask R74 does not allow for its `uop` (R78 (b)). -/
  | laneMask
  deriving DecidableEq, Repr

/-- Field `uop`, bits 7:4 of a format-U word (R73). -/
def uopField (u : Byte) : BitVec 4 := u.extractLsb' 4 4

/-- Field `z`, bit 3 of a format-U word (R73). -/
def zField (u : Byte) : Bool := u.getLsbD 3

/-- Field `lm`, bits 2:0 of a format-U word (R73). -/
def lmField (u : Byte) : BitVec 3 := u.extractLsb' 0 3

/-- The bits of a legal lane mask: bit `k` set means lane group `k` takes part (R73, R74). -/
def LaneMask.bits : LaneMask → BitVec 3
  | .l0 => 0b001#3
  | .l012 => 0b111#3

/-- The operation of a lane `uop`, for the two masks R74 allows. -/
def decodeLane (op : LaneMask → Instr) (m : BitVec 3) : Except Reserved Instr :=
  if m = 0b001#3 then .ok (op .l0) else if m = 0b111#3 then .ok (op .l012) else .error .laneMask

/-- The operation of a `uop` that takes no lanes: its mask must be 0 (R74). -/
def decodePlain (i : Instr) (m : BitVec 3) : Except Reserved Instr :=
  if m = 0b000#3 then .ok i else .error .laneMask

/-- Decoding of a format-U word (R82, R75). -/
def decodeU (u : Byte) : Except Reserved Instr :=
  if zField u then .error .zBit
  else match (uopField u).toNat with
    | 1 => decodePlain .ldws (lmField u)
    | 2 => decodeLane .linit (lmField u)
    | 3 => decodeLane .qr (lmField u)
    | 4 => decodeLane .diag (lmField u)
    | 5 => decodeLane .undiag (lmField u)
    | 6 => decodeLane .ffadd (lmField u)
    | 7 => decodeLane .xorst (lmField u)
    | 8 => decodePlain .ctrinc (lmField u)
    | 9 => decodePlain .ctrwr (lmField u)
    | _ => .error .uop

/-- Decoding of a command word, given as a number (R82, R72): `cop` is bits 7:0 and `nblocks` the `BCW` bits above. Bits above
these do not reach the generator: the port has `BCW + 8` of them. -/
def decodeCmd (cfg : Config) (c : Nat) : Except Reserved Instr :=
  if c % 256 = 1 then .ok (.gen (c / 256 % 2 ^ cfg.bcw)) else .error .cop

/-- Decoding by where the word comes from (R71). -/
def decodeWord (cfg : Config) : Format → Nat → Except Reserved Instr
  | .cmd, w => decodeCmd cfg w
  | .u, w => decodeU (BitVec.ofNat 8 w)

/-- The operation a word decodes to, forgetting why a reserved one is refused. -/
def acceptedInstr : Except Reserved Instr → Option Instr
  | .ok i => some i
  | .error _ => none

/-- A row of spec/opcode_table.json, its bits numbered as the table numbers them. A word wider than 8 bits can only be a
command word; one of 8 bits is a format-U word or, when format U refuses it, a command word with `nblocks` 0. No word is
legal in both formats: no legal format-U word has `0x01` as its value (R75). -/
def decodeTableWord (nbits w : Nat) : Option Instr :=
  if 8 < nbits then acceptedInstr (decodeCmd Config.standard w)
  else match decodeU (BitVec.ofNat 8 w) with
    | .ok i => some i
    | .error _ => acceptedInstr (decodeCmd Config.standard w)

/-! The encoder, written from the same tables. -/

/-- A format-U word as a number, from `uop` and `lm` (R73), `z` being 0. -/
def wordU (uop : Nat) (lm : BitVec 3) : Nat := uop * 16 + lm.toNat

/-- The word of an operation, as a number (R72, R75). -/
def encode : Instr → Nat
  | .gen n => n * 256 + 1
  | .ldws => wordU 1 0#3
  | .linit lm => wordU 2 lm.bits
  | .qr lm => wordU 3 lm.bits
  | .diag lm => wordU 4 lm.bits
  | .undiag lm => wordU 5 lm.bits
  | .ffadd lm => wordU 6 lm.bits
  | .xorst lm => wordU 7 lm.bits
  | .ctrinc => wordU 8 0#3
  | .ctrwr => wordU 9 0#3

/-- The `mask` of an operation's row of the opcode table, over its lowest 8 bits (R75). -/
def opcodeMask : Instr → Byte
  | .gen _ => 0xFF
  | .ldws => 0xFF
  | .linit _ => 0xF8
  | .qr _ => 0xF8
  | .diag _ => 0xF8
  | .undiag _ => 0xF8
  | .ffadd _ => 0xF8
  | .xorst _ => 0xF8
  | .ctrinc => 0xFF
  | .ctrwr => 0xFF

/-- The `match` of an operation's row of the opcode table, over its lowest 8 bits (R75). -/
def opcodeMatch : Instr → Byte
  | .gen _ => 0x01
  | .ldws => 0x10
  | .linit _ => 0x20
  | .qr _ => 0x30
  | .diag _ => 0x40
  | .undiag _ => 0x50
  | .ffadd _ => 0x60
  | .xorst _ => 0x70
  | .ctrinc => 0x80
  | .ctrwr => 0x90

end Sys2Proof
end

