-- ==== Sys2Proof/Machine/Sequencer.lean ====
section
/-! DEFINITION. The double-round sequencer (43_sequencer.md): what is issued at a position (R165, R179), what a command port
gives (R161), and where the position goes next (R171 to R177). -/

namespace Sys2Proof.Machine

/-- `lm(REM)` (R165): no value for `REM = 0`, where no lane micro-operation is issued (R166). -/
def laneMaskOf (rem : Nat) : Option LaneMask :=
  if 3 ≤ rem then some .l012 else if 1 ≤ rem then some .l0 else none

/-- `p = popcount(lm(REM))` (R176). -/
def groupSize (rem : Nat) : Nat := if 3 ≤ rem then 3 else 1

/-- The position is one of those R179 lists, with the `REM` they go with (R166). DESIGN CHOICE (log 26): where R179 writes `-` or
nothing for `RC` or `SUB`, any value of the register's width is taken, `RC` > 10 and `SUB` > 4 among them. -/
def legalPosition (s : State) : Bool :=
  match s.ph with
  | .idle => true
  | .load => s.sub == 0
  | .init => s.sub == 0 && decide (1 ≤ s.rem)
  | .round => decide (1 ≤ s.rc.toNat) && decide (s.rc.toNat ≤ 10) && decide (s.sub.toNat ≤ 3) && decide (1 ≤ s.rem)
  | .emit => s.rc == 0 && decide (s.sub.toNat ≤ groupSize s.rem + 1) && decide (1 ≤ s.rem)
  | .writeback => s.sub == 0

/-- A lane micro-operation word with the mask of `REM` (R73, R165). -/
def laneWord (uop rem : Nat) : Option Byte :=
  match laneMaskOf rem with
  | some lm => some (BitVec.ofNat 8 (wordU uop lm.bits))
  | none => none

/-- The micro-operation word issued at the position (the table of R165), none in `IDLE` and at a position outside R179. -/
def issuedWord (s : State) : Option Byte :=
  if legalPosition s then
    match s.ph, s.sub.toNat with
    | .idle, _ => none
    | .load, _ => some 0x10
    | .init, _ => laneWord 2 s.rem
    | .round, 0 => laneWord 3 s.rem
    | .round, 1 => laneWord 4 s.rem
    | .round, 2 => laneWord 3 s.rem
    | .round, _ => laneWord 5 s.rem
    | .emit, 0 => laneWord 6 s.rem
    | .emit, 1 => laneWord 7 s.rem
    | .emit, _ => some 0x80
    | .writeback, _ => some 0x90
  else none

/-- What a step finds to do. -/
inductive Fetched where
  /-- Idle and no command presented: the generator waits (70_reset_and_hazards.md R230, 60_exceptions.md R215). -/
  | wait
  /-- Idle and a command presented that decodes (R161). -/
  | command (i : Instr)
  /-- Running: the micro-operation of the position (R165). -/
  | microOp (i : Instr)
  /-- A reserved word or a position outside R179. -/
  | refuse (r : Refusal)
  deriving DecidableEq, Repr

/-- What an idle generator finds at its command port. -/
def fetchCommand (s : State) : Fetched :=
  match s.port with
  | none => .wait
  | some c =>
    match decodeCmd s.cfg c with
    | .ok i => .command i
    | .error _ => .refuse .reservedCommand

/-- What a running generator issues. -/
def fetchMicroOp (s : State) : Fetched :=
  match issuedWord s with
  | none => .refuse .unreachablePosition
  | some u =>
    match decodeU u with
    | .ok i => .microOp i
    | .error _ => .refuse .reservedMicroOp

/-- The port is read in `IDLE` only: while `BUSY` is 1 a presented command waits (R161). -/
def fetch (s : State) : Fetched := if busy s then fetchMicroOp s else fetchCommand s

/-- The command word has been taken from the port (log 6). -/
def takeCommand (s : State) : State := { s with port := none }

/-- `pos <- dispatch(REM)` (R171). -/
def dispatch (s : State) : State :=
  if 1 ≤ s.rem then setPos s .init s.rc 0 else setPos s .writeback s.rc 0

/-- After a micro-operation of phase `ROUND` (R174). -/
def advanceRound (s : State) : State :=
  if s.sub.toNat < 3 then setPos s .round s.rc (s.sub + 1)
  else if s.rc - 1 = 0 then setPos s .emit (s.rc - 1) 0
  else setPos s .round (s.rc - 1) 0

/-- `OFF <- OFF + 64*p; REM <- REM - p` (R176). -/
def countGroup (s : State) : State :=
  setRem (setOff s (s.off + 64 * groupSize s.rem)) (s.rem - groupSize s.rem)

/-- After a micro-operation of phase `EMIT` (R175, R176); `last` is `p + 1`. -/
def advanceEmit (s : State) : State :=
  if s.sub.toNat < groupSize s.rem + 1 then setPos s .emit s.rc (s.sub + 1)
  else dispatch (countGroup s)

/-- The end of a run (R177): `DONE <- 1`, the position `IDLE`; the registers of R243 hold free values (log 5). -/
def complete (s : State) : State :=
  freeRegisters (setPos (setDone s true) .idle s.rc s.sub)

/-- The transition of the sequencer after the micro-operation of its position (R172 to R177). -/
def advance (s : State) : State :=
  match s.ph with
  | .idle => s
  | .load => dispatch s
  | .init => setPos s .round 10 0
  | .round => advanceRound s
  | .emit => advanceEmit s
  | .writeback => complete s

/-- The position at which, with a `REM` that gives its mask, the sequencer issues a micro-operation first (R165). A command has
none. -/
def positionFor : Instr → State → State
  | .gen _, s => setPos s .idle s.rc s.sub
  | .ldws, s => setPos s .load s.rc 0
  | .linit lm, s => setPos { s with rem := laneCount lm } .init s.rc 0
  | .qr lm, s => setPos { s with rem := laneCount lm } .round 10 0
  | .diag lm, s => setPos { s with rem := laneCount lm } .round 10 1
  | .undiag lm, s => setPos { s with rem := laneCount lm } .round 10 3
  | .ffadd lm, s => setPos { s with rem := laneCount lm } .emit 0 0
  | .xorst lm, s => setPos { s with rem := laneCount lm } .emit 0 1
  | .ctrinc, s => setPos { s with rem := 1 } .emit 0 2
  | .ctrwr, s => setPos s .writeback s.rc 0

end Sys2Proof.Machine
end

