-- ==== Sys2Proof/Machine/HostPort.lean ====
section
/-! DEFINITION. What the host can do to the machine (60_exceptions.md R213), as plain functions of the state: no step does any of
these. A host has no move while a `GEN` runs (20_memory.md R60, R204 V4 and V5), so those answer none then. -/

namespace Sys2Proof.Machine

/-- Presents a command word at the command port (43_sequencer.md R161, R213 step 5). DESIGN CHOICE (log 6): presenting and
accepting are one transition in R170 and two here, a word presented while idle, before an earlier one has been accepted,
replaces it, and the flags are as they were until the acceptance: after an earlier `GEN` a presented command leaves `DONE` 1 and
`BUSY` 0, so a wait for `DONE` = 1 (R213 step 7) that begins before the acceptance step ends at once on the old flag. -/
def hostPresent (c : Nat) (s : State) : Option State :=
  if busy s then none else some { s with port := some c }

/-- Places the spaces and gives the buffers their sizes (R213 step 3). -/
def hostPlace (p : Placement) (s : State) : Option State :=
  if busy s then none else some { s with place := p }

/-- Writes bytes of a space (R213 steps 1, 2, 3 and 8). DESIGN CHOICE (log 25): an offset or length past the size R40 gives the
space is not checked, and reaches the bytes that stand there in the flat memory. -/
def hostWrite (sp : Space) (off : Nat) (v : List Byte) (s : State) : Option State :=
  if busy s then none else some (memWrite s sp off v)

/-- Reads bytes of a space, defined once a run is complete (60_exceptions.md R212, 70_reset_and_hazards.md R245). DESIGN
CHOICE (log 25): as for a write, no bound is checked, and a read is open whenever `BUSY` is 0, be `DONE` 1 or not. -/
def hostRead (sp : Space) (off n : Nat) (s : State) : Option (List Byte) :=
  if busy s then none else some (memRead s sp off n)

/-- The first `n` bytes of `OUT` hold free values. -/
def freeOut (s : State) : Nat → Memory
  | 0 => s.mem
  | n + 1 =>
    Memory.write (freeOut s n) (s.place.outBase + n)
      (Config.residueByte n s.freeIx (Memory.read s.mem (s.place.outBase + n)))

/-- Reset (70_reset_and_hazards.md R230, R231), at any time: `PH` is `IDLE`, `DONE` is 0, every other register is unspecified, and
memory is untouched but for `OUT` when a `GEN` was running (log 13). No command is left at the port (log 13).
DESIGN CHOICE (log 26): `RC` and `SUB` may hold any value of their 4 and 3 bits. -/
def hostReset (s : State) : State :=
  let m := if busy s then freeOut s (spaceSize s.place .out) else s.mem
  let t := freeRegisters s
  { t with
    mem := m
    port := none
    sigma := Config.residueVec 27 s.freeIx s.sigma
    ph := .idle
    rc := BitVec.ofNat 4 (Config.residueNum 2 s.freeIx s.rc.toNat)
    sub := BitVec.ofNat 3 (Config.residueNum 3 s.freeIx s.sub.toNat)
    done := false }

end Sys2Proof.Machine
end

