-- ==== Sys2Proof/Machine/Step.lean ====
section
/-! DEFINITION. One step of the generator, and how an instruction is laid where the next step finds it. -/

namespace Sys2Proof.Machine

/-- One abstract transition (43_sequencer.md R164 to R177): an idle generator takes the presented command or waits; a running
one issues the micro-operation of its position, which takes effect completely (70_reset_and_hazards.md R244), and then moves
its position. -/
def step (s : State) : Host.Outcome State Fault Refusal :=
  match fetch s with
  | .wait => .next s
  | .command i => exec i (takeCommand s)
  | .microOp i => andThen (exec i s) (fun t => .next (advance t))
  | .refuse r => .refused r

/-- `s` with an instruction where the next step finds it (log 14). A command word stands at the command port of an idle
generator, with buffers of the sizes its launch is made with; a format-U word is issued by the sequencer from a position, so
the position and `REM` are those that issue it. Any other word can only be presented at the port. -/
def State.withFetchWord (s : State) (nbits w : Nat) : State :=
  match decodeTableWord nbits w with
  | some (.gen n) =>
    { s with port := some w, ph := .idle, place := { s.place with inSize := 64 * n, outSize := 64 * n } }
  | some i => positionFor i s
  | none => { s with port := some w, ph := .idle }

end Sys2Proof.Machine
end

