-- ==== Sys2Proof/Machine/Block.lean ====
section
/-! DEFINITION. The macros (30_encoding.md R81) and the generator at command level as a pure function: the keystream block
(41_lanes_and_block.md R127) and `GEN n` (43_sequencer.md R160). No step calls these; statements compare the steps with them. -/

namespace Sys2Proof.Machine

/-! Macros: lists of micro-operations, run one after the other. -/

/-- `DROUND lm` (R81, 40_mixer.md R106). -/
def droundOps (lm : LaneMask) : List Instr := [.qr lm, .diag lm, .qr lm, .undiag lm]

/-- `n` times a list of operations. -/
def repeatOps : Nat → List Instr → List Instr
  | 0, _ => []
  | n + 1, ops => ops ++ repeatOps n ops

/-- `ROUNDS lm`: ten double rounds (R81, 40_mixer.md R108). -/
def roundsOps (lm : LaneMask) : List Instr := repeatOps 10 (droundOps lm)

/-- `CTRADD3` (R81, 42_combine_and_counter.md R145). -/
def ctradd3Ops : List Instr := [.ctrinc, .ctrinc, .ctrinc]

/-- `BLOCK3` (R81). -/
def block3Ops : List Instr := .linit .l012 :: roundsOps .l012 ++ [.ffadd .l012, .xorst .l012] ++ ctradd3Ops

/-- `BLOCK1` (R81). -/
def block1Ops : List Instr := .linit .l0 :: roundsOps .l0 ++ [.ffadd .l0, .xorst .l0, .ctrinc]

/-- Operations one after the other, as far as each answers a next state. -/
def execList : List Instr → State → Host.Outcome State Fault Refusal
  | [], s => .next s
  | i :: is, s => andThen (exec i s) (execList is)

/-! The block function -/

/-- The quarter round on whole vectors, the second form of 40_mixer.md R100. -/
def qrVectors (l : Lane) : Lane :=
  let a1 := add32x4 l.a l.b
  let d1 := rotl32x4 (xor32x4 l.d a1) 16
  let c1 := add32x4 l.c d1
  let b1 := rotl32x4 (xor32x4 l.b c1) 12
  let a2 := add32x4 a1 b1
  let d2 := rotl32x4 (xor32x4 d1 a2) 8
  let c2 := add32x4 c1 d2
  let b2 := rotl32x4 (xor32x4 b1 c2) 7
  { l with a := a2, b := b2, c := c2, d := d2 }

/-- `dround` on one lane group (40_mixer.md R106). -/
def droundLane (l : Lane) : Lane := undiagLane (qrLane (diagLane (qrLane l)))

/-- `n` double rounds on one lane group. -/
def roundsLane : Nat → Lane → Lane
  | 0, l => l
  | n + 1, l => roundsLane n (droundLane l)

/-- `ksblock(S, k0, k1, cn)` (41_lanes_and_block.md R127). -/
def ksblock (sg k0 k1 cn : V128) : List Byte :=
  let l := roundsLane 10 (initLane sg k0 k1 cn)
  vecBytes (add32x4 l.a sg) ++ vecBytes (add32x4 l.b k0) ++ vecBytes (add32x4 l.c k1) ++ vecBytes (add32x4 l.d cn)

/-- `cn_i`: counter `(c + i) mod 2^64`, the nonce as it is (43_sequencer.md R160). -/
def counterVec (cn : V128) (i : Nat) : V128 := ofQ (q0 cn + BitVec.ofNat 64 i) (q1 cn)

/-! `GEN n` as a function of the spaces (43_sequencer.md R160) -/

/-- The keystream block of block index `i`, from the bytes of `CONST` and `WS`. -/
def keystreamBlock (s : State) (i : Nat) : List Byte :=
  ksblock (bytesVec (memRead s .const 0 16)) (bytesVec (memRead s .ws 0 16)) (bytesVec (memRead s .ws 16 16))
    (counterVec (bytesVec (memRead s .ws 32 16)) i)

/-- The memory with the output blocks `0 .. n-1` in place, every byte of `IN` taken from `s`. -/
def genBlocks (s : State) : Nat → Memory
  | 0 => s.mem
  | n + 1 =>
    Memory.writeBytes (genBlocks s n) (s.place.outBase + 64 * n)
      (xorBytes (memRead s .inp (64 * n) 64) (keystreamBlock s n))

/-- The memory `GEN n` leaves: the blocks, and the counter `(c + n) mod 2^64` at `WS[32..39]`. -/
def genMemory (s : State) (n : Nat) : Memory :=
  Memory.writeBytes (genBlocks s n) (s.place.wsBase + 32)
    ((vecBytes (counterVec (bytesVec (memRead s .ws 32 16)) n)).take 8)

end Sys2Proof.Machine
end

