-- ==== Sys2Proof/Safety.lean ====
section
/-! DEFINITION. What counts as a safe launch and a safe run, in the terms the statements use: the caller's contract
(60_exceptions.md R204), the reachable positions (43_sequencer.md R179), and the invariants of a run. Written from the rules, not
from the functions of Machine that a step calls. -/

namespace Sys2Proof.Machine

/-- Two ranges of addresses, each a base and a size, share no byte. -/
abbrev DisjointRanges (base1 size1 base2 size2 : Nat) : Prop :=
  size1 = 0 ∨ size2 = 0 ∨ base1 + size1 ≤ base2 ∨ base2 + size2 ≤ base1

/-- The placement keeps the contract for `GEN n`: sizes (R42), `IN` and `OUT` identical or disjoint (R50), the other overlaps of
R51 absent. -/
abbrev PlacementOk (p : Placement) (n : Nat) : Prop :=
  p.inSize = 64 * n ∧ p.outSize = 64 * n ∧
  (p.inBase = p.outBase ∨ DisjointRanges p.inBase (64 * n) p.outBase (64 * n)) ∧
  DisjointRanges p.outBase (64 * n) p.wsBase 48 ∧
  DisjointRanges p.outBase (64 * n) p.constBase 16 ∧
  DisjointRanges p.outBase (64 * n) p.incBase 16 ∧
  DisjointRanges (p.wsBase + 32) 16 p.inBase (64 * n) ∧
  DisjointRanges (p.wsBase + 32) 16 p.constBase 16 ∧
  DisjointRanges (p.wsBase + 32) 16 p.incBase 16

/-- `INC` holds `01 00 .. 00` (10_state.md R13). -/
abbrev IncrementOk (s : State) : Prop :=
  Memory.readBytes s.mem s.place.incBase 16 = [1, 0, 0, 0, 0, 0, 0, 0, 0, 0, 0, 0, 0, 0, 0, 0]

/-- The contract of a launch of `GEN n` that a state shows (R204 rows V1, V2, V3, V6; row V4 is no move of the model, log 8). -/
abbrev Contract (s : State) (n : Nat) : Prop := PlacementOk s.place n ∧ IncrementOk s

/-- The positions of 43_sequencer.md R179, with the `REM` of R166. `RC` in `IDLE`, `LOAD`, `INIT`, `WRITEBACK` and `SUB` in `IDLE` may
hold any value of their widths (log 26). -/
def ReachablePosition (s : State) : Prop :=
  match s.ph with
  | .idle => True
  | .load => s.sub = 0
  | .init => s.sub = 0 ∧ 1 ≤ s.rem
  | .round => 1 ≤ s.rc.toNat ∧ s.rc.toNat ≤ 10 ∧ s.sub.toNat ≤ 3 ∧ 1 ≤ s.rem
  | .emit => s.rc = 0 ∧ s.sub.toNat ≤ 4 ∧ (s.rem ≤ 2 → s.sub.toNat ≤ 2) ∧ 1 ≤ s.rem
  | .writeback => s.sub = 0

/-- The control registers hold values of their widths (10_state.md R18, R19) and the position is a reachable one. -/
def ControlOk (s : State) : Prop :=
  s.rem < 2 ^ s.cfg.bcw ∧ s.off < 2 ^ (s.cfg.bcw + 6) ∧ ReachablePosition s

/-- While `GEN n` runs, its launch keeps the contract and `OFF = 64 * (n - REM)` (10_state.md R19), `REM` being `n` in `LOAD` and 0 in
`WRITEBACK` (43_sequencer.md R170, R171). -/
def RunOk (s : State) : Prop :=
  s.ph ≠ .idle →
    ∃ n, n < 2 ^ s.cfg.bcw ∧ Contract s n ∧ s.rem ≤ n ∧ s.off = 64 * (n - s.rem) ∧
      (s.ph = .load → s.rem = n) ∧ (s.ph = .writeback → s.rem = 0)

/-- `lm(REM)` for `REM >= 1` (43_sequencer.md R165). -/
def maskOf (rem : Nat) : LaneMask := if 3 ≤ rem then .l012 else .l0

/-- How many of the group's `CTRINC` have been issued at the position (43_sequencer.md R176). -/
def incrementsDone (s : State) : Nat := if s.ph = .emit then s.sub.toNat - 2 else 0

/-- While `GEN n` runs and `LDWS` has been issued, `SIGMA`, `K0`, `K1` are what `CONST` and `WS` hold (10_state.md R11, R14), `CN`
has the nonce `WS` holds and its counter is that of `WS` advanced by one for each block counted (R15, 43_sequencer.md R176). -/
def LoadedOk (s : State) : Prop :=
  s.ph ≠ .idle → s.ph ≠ .load →
    s.sigma = bytesVec (memRead s .const 0 16) ∧
    s.k0 = bytesVec (memRead s .ws 0 16) ∧
    s.k1 = bytesVec (memRead s .ws 16 16) ∧
    q1 s.cn = q1 (bytesVec (memRead s .ws 32 16)) ∧
    q0 s.cn = q0 (bytesVec (memRead s .ws 32 16)) + BitVec.ofNat 64 (s.off / 64 + incrementsDone s)

/-- In phases `ROUND` and the first sub-step of `EMIT` the saved copies of every lane group of the mask are the vectors it was
initialised from (10_state.md R17, 41_lanes_and_block.md R122). -/
def SavedOk (s : State) : Prop :=
  (s.ph = .round ∨ (s.ph = .emit ∧ s.sub.toNat ≤ 1)) → ∀ k, k < groupSize s.rem →
    (getLane s k).sa = s.sigma ∧ (getLane s k).sb = s.k0 ∧ (getLane s k).sc = s.k1 ∧
      (getLane s k).sd = counterVec s.cn k

/-- The control part of a state: what decides which micro-operation is issued and where the position goes (43_sequencer.md R181). -/
structure ControlPart where
  cfg : Config
  place : Placement
  port : Option Nat
  rem : Nat
  off : Nat
  ph : Phase
  rc : BitVec 4
  sub : BitVec 3
  done : Bool
  freeIx : Nat
  deriving DecidableEq, Repr

/-- The control part of a state. -/
def controlPart (s : State) : ControlPart :=
  { cfg := s.cfg, place := s.place, port := s.port, rem := s.rem, off := s.off, ph := s.ph, rc := s.rc, sub := s.sub,
    done := s.done, freeIx := s.freeIx }

/-- The number of micro-operations of `GEN n` (43_sequencer.md R180). -/
def runLength (n : Nat) : Nat := 2 + 46 * (n / 3) + 44 * (n % 3)

/-- The state in which the host has presented `GEN n` at the port. -/
def presentGen (s : State) (n : Nat) : State := { s with port := some (encode (.gen n)) }

end Sys2Proof.Machine
end

