-- ==== Sys2Proof/Certificates/Slice0/Obligations.lean ====
section
/-! DEFINITION. The statements for the provers. Each docstring names the rules of spec/ it is about; where a clause rests on a
choice of the model, or on a decision the spec marks as its own, it says so. -/

open Sys2Proof Sys2Proof.Machine

/-! ## Encoding (30_encoding.md) -/

/-- R82: "decode after encode is the identity on operations", for every well-formed operation of every width of the block count. -/
def Obligations.DecodeAfterEncode : Prop :=
  ∀ (cfg : Config) (i : Instr), i.wellFormed cfg = true → decodeWord cfg i.format (encode i) = .ok i

/-- R82: "encode after decode is the identity on legal words": no bit of a legal word is ignored. A word of format CMD has
`BCW + 8` bits, one of format U has 8. -/
def Obligations.EncodeAfterDecode : Prop :=
  ∀ (cfg : Config) (f : Format) (w : Nat) (i : Instr),
    w < 2 ^ (match f with | .cmd => cfg.bcw + 8 | .u => 8) → decodeWord cfg f w = .ok i →
    i.format = f ∧ i.wellFormed cfg = true ∧ encode i = w

/-- R82, R74, R75, R78: the decoding procedure of a micro-operation word, on its bit slices `op = u[7:4]`, `z = u[3]`,
`lm = u[2:0]`; every other word is reserved. -/
def Obligations.MicroOpWordDecoding : Prop :=
  ∀ u : Byte,
    acceptedInstr (decodeU u) =
      (if u.toNat / 8 % 2 = 1 then none
       else if u.toNat / 16 = 1 ∧ u.toNat % 8 = 0 then some .ldws
       else if u.toNat / 16 = 2 ∧ u.toNat % 8 = 1 then some (.linit .l0)
       else if u.toNat / 16 = 2 ∧ u.toNat % 8 = 7 then some (.linit .l012)
       else if u.toNat / 16 = 3 ∧ u.toNat % 8 = 1 then some (.qr .l0)
       else if u.toNat / 16 = 3 ∧ u.toNat % 8 = 7 then some (.qr .l012)
       else if u.toNat / 16 = 4 ∧ u.toNat % 8 = 1 then some (.diag .l0)
       else if u.toNat / 16 = 4 ∧ u.toNat % 8 = 7 then some (.diag .l012)
       else if u.toNat / 16 = 5 ∧ u.toNat % 8 = 1 then some (.undiag .l0)
       else if u.toNat / 16 = 5 ∧ u.toNat % 8 = 7 then some (.undiag .l012)
       else if u.toNat / 16 = 6 ∧ u.toNat % 8 = 1 then some (.ffadd .l0)
       else if u.toNat / 16 = 6 ∧ u.toNat % 8 = 7 then some (.ffadd .l012)
       else if u.toNat / 16 = 7 ∧ u.toNat % 8 = 1 then some (.xorst .l0)
       else if u.toNat / 16 = 7 ∧ u.toNat % 8 = 7 then some (.xorst .l012)
       else if u.toNat / 16 = 8 ∧ u.toNat % 8 = 0 then some .ctrinc
       else if u.toNat / 16 = 9 ∧ u.toNat % 8 = 0 then some .ctrwr
       else none)

/-- R72, R77, R78 (a), R82: a command word is `GEN` exactly when its low eight bits are `0x01`, with the `BCW` bits above as its
block count. That bits above the port's `BCW + 8` are ignored is the model's choice (log 23). -/
def Obligations.CommandWordDecoding : Prop :=
  ∀ (cfg : Config) (c : Nat),
    decodeCmd cfg c = (if c % 2 ^ 8 = 1 then .ok (.gen ((c / 2 ^ 8) % 2 ^ cfg.bcw)) else .error .cop)

/-- Words written out from the tables of R72, R75 (95_test_vectors.md V-ENC1 to V-ENC4): one of every family, and reserved ones. -/
def Obligations.WordsOfTheTables : Prop :=
  decodeCmd Config.standard 0x401 = .ok (.gen 4) ∧
  decodeCmd Config.standard 0xffffffffffffffff01 = .ok (.gen (2 ^ 64 - 1)) ∧
  decodeCmd Config.standard 0x110 = .error .cop ∧
  decodeU 0b00010000 = .ok .ldws ∧ decodeU 0b00100111 = .ok (.linit .l012) ∧ decodeU 0b00110001 = .ok (.qr .l0) ∧
  decodeU 0b01000111 = .ok (.diag .l012) ∧ decodeU 0b01010001 = .ok (.undiag .l0) ∧
  decodeU 0b01100111 = .ok (.ffadd .l012) ∧ decodeU 0b01110001 = .ok (.xorst .l0) ∧
  decodeU 0b10000000 = .ok .ctrinc ∧ decodeU 0b10010000 = .ok .ctrwr ∧
  decodeU 0x18 = .error .zBit ∧ decodeU 0x33 = .error .laneMask ∧ decodeU 0x81 = .error .laneMask ∧
  decodeU 0x00 = .error .uop ∧ decodeU 0xa0 = .error .uop

/-! ## The step (43_sequencer.md) -/

/-- A step runs the decoded instruction. Idle with a word at the port that decodes: the step is `exec` of it once the word is taken
from the port (log 6). Running: the step is `exec` of what the issued word decodes to, followed by the sequencer's transition. -/
def Obligations.StepRunsDecodedInstruction : Prop :=
  (∀ (s : State) (c : Nat) (i : Instr), s.ph = .idle → s.port = some c → decodeCmd s.cfg c = .ok i →
    step s = exec i { s with port := none }) ∧
  (∀ (s t : State) (u : Byte) (i : Instr), s.ph ≠ .idle → issuedWord s = some u → decodeU u = .ok i →
    exec i s = .next t → step s = .next (advance t)) ∧
  (∀ (s : State) (u : Byte) (i : Instr) (r : Refusal), s.ph ≠ .idle → issuedWord s = some u → decodeU u = .ok i →
    exec i s = .refused r → step s = .refused r)

/-- R165: the micro-operation word issued at each position of R179, a function of the position and of `REM >= 3` alone. -/
def Obligations.IssuedWordTable : Prop :=
  ∀ s : State, ReachablePosition s →
    issuedWord s =
      (match s.ph with
       | .idle => none
       | .load => some 0x10
       | .init => some (if 3 ≤ s.rem then 0x27 else 0x21)
       | .round =>
         if s.sub = 0 ∨ s.sub = 2 then some (if 3 ≤ s.rem then 0x37 else 0x31)
         else if s.sub = 1 then some (if 3 ≤ s.rem then 0x47 else 0x41)
         else some (if 3 ≤ s.rem then 0x57 else 0x51)
       | .emit =>
         if s.sub = 0 then some (if 3 ≤ s.rem then 0x67 else 0x61)
         else if s.sub = 1 then some (if 3 ≤ s.rem then 0x77 else 0x71)
         else some 0x80
       | .writeback => some 0x90)

/-- R165, R78: the sequencer never issues a reserved word, and at a running position of R179 it always issues one. -/
def Obligations.SequencerIssuesLegalWords : Prop :=
  ∀ s : State, s.ph ≠ .idle → ReachablePosition s →
    ∃ u i, issuedWord s = some u ∧ decodeU u = .ok i ∧ i.format = .u ∧ encode i = u.toNat ∧ fetch s = .microOp i

/-- R230, R215, log 12: an idle generator with no command presented waits, unchanged. R78 (a), R204 V7: a reserved command word is
refused. U12, log 9: so is a step at a position outside R179. -/
def Obligations.StepWaitsOrRefusesByName : Prop :=
  ∀ s : State,
    (s.ph = .idle → s.port = none → step s = .next s) ∧
    (∀ c, s.ph = .idle → s.port = some c → c % 256 ≠ 1 → step s = .refused .reservedCommand) ∧
    (¬ ReachablePosition s → step s = .refused .unreachablePosition)

/-- R161, U19, log 6: while `BUSY` is 1 what stands at the command port changes nothing: the step is the same, and leaves the port
as it is. -/
def Obligations.BusyStepIgnoresPort : Prop :=
  ∀ (s : State) (p : Option Nat), s.ph ≠ .idle →
    (∀ t, step s = .next t → t.port = s.port ∧ step { s with port := p } = .next { t with port := p }) ∧
    (∀ r, step s = .refused r → step { s with port := p } = .refused r)

/-- R170, R160: an idle generator accepts `GEN n` whose launch keeps the contract: `REM <- n`, `OFF <- 0`, `DONE <- 0`, the
position `LOAD`, `SUB` 0, `RC` and everything else unchanged, so `BUSY` is 1. That `exec`
of `GEN n` is its acceptance, its run being the steps that follow, is the model's choice (log 10). -/
def Obligations.GenAccepted : Prop :=
  ∀ (n : Nat) (s : State), s.ph = .idle → n < 2 ^ s.cfg.bcw → Contract s n →
    exec (.gen n) s = .next { s with rem := n, off := 0, done := false, ph := .load, sub := 0 } ∧
    busy { s with rem := n, off := 0, done := false, ph := .load, sub := 0 } = true

/-- R204 (rows V1, V2, V3, V5, V6), R202: `GEN n` is refused exactly when the generator is busy or the launch breaks the contract;
which of several names it is refused by is the model's choice (log 7). -/
def Obligations.GenRefusedExactly : Prop :=
  ∀ (n : Nat) (s : State),
    ((∃ r, exec (.gen n) s = .refused r) ↔ s.ph ≠ .idle ∨ ¬ Contract s n) ∧
    (s.ph ≠ .idle → exec (.gen n) s = .refused .commandWhileBusy) ∧
    (s.ph = .idle → ¬ (s.place.inSize = 64 * n ∧ s.place.outSize = 64 * n) →
      exec (.gen n) s = .refused .wrongBufferSize) ∧
    (s.ph = .idle → PlacementOk s.place n → ¬ IncrementOk s → exec (.gen n) s = .refused .wrongIncrement)

/-- R172, R171: phase `LOAD`. That `GEN 0` goes through `LDWS` to `WRITEBACK` is the spec's own decision (D16, log 11). -/
def Obligations.LoadTransition : Prop :=
  ∀ s u : State, s.ph = .load → s.sub = 0 → exec .ldws s = .next u →
    step s = .next (if 1 ≤ s.rem then { u with ph := .init, sub := 0 } else { u with ph := .writeback, sub := 0 })

/-- R173: phase `INIT`; the countdown is loaded with 10. -/
def Obligations.InitTransition : Prop :=
  ∀ s : State, s.ph = .init → s.sub = 0 → 1 ≤ s.rem →
    ∃ u, exec (.linit (if 3 ≤ s.rem then .l012 else .l0)) s = .next u ∧
      step s = .next { u with ph := .round, rc := 10, sub := 0 }

/-- R174: phase `ROUND`: the four sub-steps, then the countdown; `EMIT` follows the tenth double round. -/
def Obligations.RoundTransition : Prop :=
  ∀ (s : State) (lm : LaneMask), s.ph = .round → 1 ≤ s.rc.toNat → s.rc.toNat ≤ 10 → s.sub.toNat ≤ 3 → 1 ≤ s.rem →
    lm = (if 3 ≤ s.rem then .l012 else .l0) →
    ∃ u, exec (if s.sub = 0 ∨ s.sub = 2 then .qr lm else if s.sub = 1 then .diag lm else .undiag lm) s = .next u ∧
      step s = .next
        (if s.sub.toNat < 3 then { u with sub := s.sub + 1 }
         else if s.rc = 1 then { u with ph := .emit, rc := 0, sub := 0 }
         else { u with rc := s.rc - 1, sub := 0 })

/-- R175, R176: phase `EMIT`: feed-forward, combine, `p` increments, then the bookkeeping and the dispatch. The two hypotheses on
`REM` and `OFF` say that the registers' widths hold the new values; they are kept in every run (`ControlWidthsAndPositionKept`,
`RunContractKept`). -/
def Obligations.EmitTransition : Prop :=
  ∀ (s : State) (p : Nat) (lm : LaneMask), s.ph = .emit → s.rc = 0 → 1 ≤ s.rem → s.rem < 2 ^ s.cfg.bcw →
    p = (if 3 ≤ s.rem then 3 else 1) → lm = (if 3 ≤ s.rem then .l012 else .l0) → s.sub.toNat ≤ p + 1 →
    s.off + 64 * p < 2 ^ (s.cfg.bcw + 6) →
    ∃ u, exec (if s.sub = 0 then .ffadd lm else if s.sub = 1 then .xorst lm else .ctrinc) s = .next u ∧
      step s = .next
        (if s.sub.toNat < p + 1 then { u with sub := s.sub + 1 }
         else { u with
           off := s.off + 64 * p
           rem := s.rem - p
           ph := if 1 ≤ s.rem - p then .init else .writeback
           sub := 0 })

/-- R177, R212, R21: phase `WRITEBACK` ends the run: `CTRWR`, then `DONE` is 1 and `BUSY` 0. Nothing is said of the registers R243
leaves unspecified (free values, log 5). Two clauses are the model's choice: that `SIGMA` is unchanged (log 5) and that the port is
(log 6). -/
def Obligations.WritebackCompletes : Prop :=
  ∀ s : State, s.ph = .writeback → s.sub = 0 →
    ∃ u t, exec .ctrwr s = .next u ∧ step s = .next t ∧ t.ph = .idle ∧ t.done = true ∧ busy t = false ∧
      t.mem = u.mem ∧ t.cfg = s.cfg ∧ t.place = s.place ∧ t.port = s.port ∧ t.sigma = s.sigma

/-! ## The operations: results, completion and frame -/

/-- R120 (with D1, D2): `LDWS` loads `SIGMA` from `CONST`, `K0`, `K1`, `CN` from `WS[0..15]`, `WS[16..31]`, `WS[32..47]`, every word
little-endian, and changes nothing else; it needs only that `INC` holds the fixed increment vector. -/
def Obligations.LdwsLoads : Prop :=
  ∀ s : State, IncrementOk s →
    ∃ t, exec .ldws s = .next t ∧
      t = { s with sigma := t.sigma, k0 := t.k0, k1 := t.k1, cn := t.cn } ∧
      ∀ i, i < 4 → ∀ (v : V128) (a : Nat),
        (v = t.sigma ∧ a = s.place.constBase ∨ v = t.k0 ∧ a = s.place.wsBase ∨ v = t.k1 ∧ a = s.place.wsBase + 16 ∨
          v = t.cn ∧ a = s.place.wsBase + 32) →
        (vword v i).toNat =
          (Memory.read s.mem (a + 4 * i)).toNat + 2 ^ 8 * (Memory.read s.mem (a + 4 * i + 1)).toNat +
          2 ^ 16 * (Memory.read s.mem (a + 4 * i + 2)).toNat + 2 ^ 24 * (Memory.read s.mem (a + 4 * i + 3)).toNat

/-- R120, R204 V6: `LDWS` is refused when `INC` holds any other sixteen bytes: the model's name for a launch without an outcome
(log 7). -/
def Obligations.LdwsRefusesWrongIncrement : Prop :=
  ∀ s : State, ¬ IncrementOk s → exec .ldws s = .refused .wrongIncrement

/-- R122: `LINIT lm` initialises and saves the lane groups of the mask, the counter of lane `k` being `CN.q[0] + k` as a 64-bit
number and the nonce as it is; no flag, no memory, no other register, and not the lane groups outside the mask. Words `0x27`,
`0x21`. -/
def Obligations.LinitResult : Prop :=
  decodeU 0x27 = .ok (.linit .l012) ∧ decodeU 0x21 = .ok (.linit .l0) ∧
  ∀ (lm : LaneMask) (s : State), ∃ t, exec (.linit lm) s = .next t ∧
    t = { s with lane0 := t.lane0, lane1 := t.lane1, lane2 := t.lane2 } ∧
    ∀ k, k < 3 →
      if lm = .l012 ∨ k = 0 then
        (getLane t k).a = s.sigma ∧ (getLane t k).b = s.k0 ∧ (getLane t k).c = s.k1 ∧
        (q0 (getLane t k).d).toNat = ((q0 s.cn).toNat + k) % 2 ^ 64 ∧ q1 (getLane t k).d = q1 s.cn ∧
        (getLane t k).sa = (getLane t k).a ∧ (getLane t k).sb = (getLane t k).b ∧
        (getLane t k).sc = (getLane t k).c ∧ (getLane t k).sd = (getLane t k).d
      else getLane t k = getLane s k

/-- R101: the word-level quarter round is its twelve assignments in order, each using the values left by those before it. -/
def Obligations.QuarterRoundAssignments : Prop :=
  ∀ a b c d : W32,
    let r0 := a + b; let x0 := d ^^^ r0; let x1 := rotl32 x0 16
    let y0 := c + x1; let z0 := b ^^^ y0; let z1 := rotl32 z0 12
    let r1 := r0 + z1; let x2 := x1 ^^^ r1; let x3 := rotl32 x2 8
    let y1 := y0 + x3; let z2 := z1 ^^^ y1; let z3 := rotl32 z2 7
    qrWord a b c d = { a := r1, b := z3, c := y1, d := x3 } ∧
    ∀ (w : W32) (n : Nat), 0 < n → n < 32 → (rotl32 w n).toNat = (w.toNat * 2 ^ n) % 2 ^ 32 + w.toNat / 2 ^ (32 - n)

/-- R100: `QR lm` applies the word-level quarter round at each of the four word positions of each lane group of the mask, which is
the whole-vector form of the rule; saved copies, lane groups outside the mask, flags, memory and every other register are
unchanged. Words `0x37`, `0x31`; the example of the rule. -/
def Obligations.QrResult : Prop :=
  decodeU 0x37 = .ok (.qr .l012) ∧ decodeU 0x31 = .ok (.qr .l0) ∧
  qrWord 0x11111111 0x01020304 0x9b8d6f43 0x01234567 =
    { a := 0xea2a92f4, b := 0xcb1cf8ce, c := 0x4581472e, d := 0x5881c4bb } ∧
  qrWord 0 0 0 0 = { a := 0, b := 0, c := 0, d := 0 } ∧
  ∀ (lm : LaneMask) (s : State), ∃ t, exec (.qr lm) s = .next t ∧
    t = { s with lane0 := t.lane0, lane1 := t.lane1, lane2 := t.lane2 } ∧
    ∀ k, k < 3 →
      if lm = .l012 ∨ k = 0 then
        getLane t k = qrVectors (getLane s k) ∧
        ∀ i, i < 4 →
          ({ a := vword (getLane t k).a i, b := vword (getLane t k).b i, c := vword (getLane t k).c i,
             d := vword (getLane t k).d i } : WordGroup) =
            qrWord (vword (getLane s k).a i) (vword (getLane s k).b i) (vword (getLane s k).c i) (vword (getLane s k).d i)
      else getLane t k = getLane s k

/-- R104 (with the direction of D5): `DIAG lm` moves the words of `B`, `C`, `D` by 1, 2, 3 positions; `A`, the saved copies and
everything else are unchanged. -/
def Obligations.DiagResult : Prop :=
  decodeU 0x47 = .ok (.diag .l012) ∧ decodeU 0x41 = .ok (.diag .l0) ∧
  ∀ (lm : LaneMask) (s : State), ∃ t, exec (.diag lm) s = .next t ∧
    t = { s with lane0 := t.lane0, lane1 := t.lane1, lane2 := t.lane2 } ∧
    ∀ k, k < 3 →
      if lm = .l012 ∨ k = 0 then
        getLane t k = { getLane s k with b := (getLane t k).b, c := (getLane t k).c, d := (getLane t k).d } ∧
        ∀ i, i < 4 → vword (getLane t k).b i = vword (getLane s k).b ((i + 1) % 4) ∧
          vword (getLane t k).c i = vword (getLane s k).c ((i + 2) % 4) ∧
          vword (getLane t k).d i = vword (getLane s k).d ((i + 3) % 4)
      else getLane t k = getLane s k

/-- R105 (with the direction of D5): `UNDIAG lm` moves the words of `B`, `C`, `D` by 3, 2, 1 positions. -/
def Obligations.UndiagResult : Prop :=
  decodeU 0x57 = .ok (.undiag .l012) ∧ decodeU 0x51 = .ok (.undiag .l0) ∧
  ∀ (lm : LaneMask) (s : State), ∃ t, exec (.undiag lm) s = .next t ∧
    t = { s with lane0 := t.lane0, lane1 := t.lane1, lane2 := t.lane2 } ∧
    ∀ k, k < 3 →
      if lm = .l012 ∨ k = 0 then
        getLane t k = { getLane s k with b := (getLane t k).b, c := (getLane t k).c, d := (getLane t k).d } ∧
        ∀ i, i < 4 → vword (getLane t k).b i = vword (getLane s k).b ((i + 3) % 4) ∧
          vword (getLane t k).c i = vword (getLane s k).c ((i + 2) % 4) ∧
          vword (getLane t k).d i = vword (getLane s k).d ((i + 1) % 4)
      else getLane t k = getLane s k

/-- R124: `FFADD lm` adds the saved copies word by word modulo 2^32, the counter words as two independent words; the saved copies,
the lane groups outside the mask, flags, memory and every other register are unchanged. Words `0x67`, `0x61`. -/
def Obligations.FfaddResult : Prop :=
  decodeU 0x67 = .ok (.ffadd .l012) ∧ decodeU 0x61 = .ok (.ffadd .l0) ∧
  ∀ (lm : LaneMask) (s : State), ∃ t, exec (.ffadd lm) s = .next t ∧
    t = { s with lane0 := t.lane0, lane1 := t.lane1, lane2 := t.lane2 } ∧
    ∀ k, k < 3 →
      if lm = .l012 ∨ k = 0 then
        getLane t k = { getLane s k with
          a := (getLane t k).a, b := (getLane t k).b, c := (getLane t k).c, d := (getLane t k).d } ∧
        ∀ i, i < 4 →
          (vword (getLane t k).a i).toNat = ((vword (getLane s k).a i).toNat + (vword (getLane s k).sa i).toNat) % 2 ^ 32 ∧
          (vword (getLane t k).b i).toNat = ((vword (getLane s k).b i).toNat + (vword (getLane s k).sb i).toNat) % 2 ^ 32 ∧
          (vword (getLane t k).c i).toNat = ((vword (getLane s k).c i).toNat + (vword (getLane s k).sc i).toNat) % 2 ^ 32 ∧
          (vword (getLane t k).d i).toNat = ((vword (getLane s k).d i).toNat + (vword (getLane s k).sd i).toNat) % 2 ^ 32
      else getLane t k = getLane s k

/-- R140, R126, R48 (with D1, D12): `XORST lm` always completes, changes memory only, and of memory only the slices
`OUT[OFF + 64k .. OFF + 64k + 63]` of the lane groups of the mask, which are consecutive; the address of the slices is the one the
meaning stores to. No other byte changes, whatever the placement. -/
def Obligations.XorstFrame : Prop :=
  ∀ (lm : LaneMask) (s : State), ∃ t, exec (.xorst lm) s = .next t ∧
    t = { s with mem := t.mem } ∧
    ∀ a, ¬ (spaceBase s.place .out + sliceOff s 0 ≤ a ∧ a < spaceBase s.place .out + sliceOff s 0 + 64 * laneCount lm) →
      Memory.read t.mem a = Memory.read s.mem a

/-- R140, R141, R126: where `IN` and `OUT` are the same bytes, or the slices of one share no byte with those of the other, byte
`64k + 16v + 4i + m` of the slices in `OUT` is the byte of `IN` at the same offset, as it was, xor bits `8m+7 .. 8m` of word `i` of
vector `v` (`A`, `B`, `C`, `D` in order) of lane group `k`. -/
def Obligations.XorstCombines : Prop :=
  ∀ (lm : LaneMask) (s : State),
    (s.place.inBase = s.place.outBase ∨
      DisjointRanges (s.place.inBase + s.off) (64 * laneCount lm) (s.place.outBase + s.off) (64 * laneCount lm)) →
    ∃ t, exec (.xorst lm) s = .next t ∧
      ∀ k v i m, k < laneCount lm → v < 4 → i < 4 → m < 4 →
        Memory.read t.mem (s.place.outBase + s.off + 64 * k + 16 * v + 4 * i + m) =
          Memory.read s.mem (s.place.inBase + s.off + 64 * k + 16 * v + 4 * i + m) ^^^
          (vword (if v = 0 then (getLane s k).a else if v = 1 then (getLane s k).b
            else if v = 2 then (getLane s k).c else (getLane s k).d) i).extractLsb' (8 * m) 8

/-- R144: `CTRINC` adds one to the 64-bit counter, with the carry out of the low word into the high word and the carry out of bit 63
dropped, keeps the nonce, and changes nothing else. Word `0x80`. -/
def Obligations.CtrincResult : Prop :=
  decodeU 0x80 = .ok .ctrinc ∧
  ∀ s : State, ∃ t, exec .ctrinc s = .next t ∧ t = { s with cn := t.cn } ∧
    t.cn = add64x2 s.cn one ∧
    t.cn.w0.toNat = (s.cn.w0.toNat + 1) % 2 ^ 32 ∧
    t.cn.w1.toNat = (s.cn.w1.toNat + (s.cn.w0.toNat + 1) / 2 ^ 32) % 2 ^ 32 ∧
    t.cn.w2 = s.cn.w2 ∧ t.cn.w3 = s.cn.w3

/-- R147 (with D1, D2): `CTRWR` stores the sixteen bytes of `CN` at `WS[32..47]`, word `i` at offsets `32 + 4i ..` least significant
byte first, and changes nothing else: no register and no other byte. -/
def Obligations.CtrwrStores : Prop :=
  decodeU 0x90 = .ok .ctrwr ∧
  ∀ s : State, ∃ t, exec .ctrwr s = .next t ∧ t = { s with mem := t.mem } ∧
    (∀ a, ¬ (spaceBase s.place .ws + 32 ≤ a ∧ a < spaceBase s.place .ws + 48) → Memory.read t.mem a = Memory.read s.mem a) ∧
    (∀ i m, i < 4 → m < 4 →
      Memory.read t.mem (spaceBase s.place .ws + 32 + 4 * i + m) = (vword s.cn i).extractLsb' (8 * m) 8)

/-- R103 (with D5), R45: word rotations compose, and a rotation by four positions is none. -/
def Obligations.WordRotationsCompose : Prop :=
  ∀ (v : V128) (j k : Nat), rotw (rotw v j) k = rotw v ((j + k) % 4) ∧ rotw v 4 = v

/-- R105: `UNDIAG` after `DIAG` is the identity, and `DIAG` after `UNDIAG` is. -/
def Obligations.DiagAndUndiagUndoEachOther : Prop :=
  ∀ (lm : LaneMask) (s : State),
    execList [.diag lm, .undiag lm] s = .next s ∧ execList [.undiag lm, .diag lm] s = .next s

/-- R102: the quarter round is a bijection of lane groups. -/
def Obligations.QuarterRoundIsBijection : Prop := Function.Bijective qrLane

/-- R107: one double round applies the word-level quarter round to the four columns, then to the four diagonals, of the matrix whose
rows are `A`, `B`, `C`, `D`. -/
def Obligations.DoubleRoundColumnsThenDiagonals : Prop :=
  ∀ l : Lane, ∃ m : Lane,
    (∀ i, i < 4 → ({ a := vword m.a i, b := vword m.b i, c := vword m.c i, d := vword m.d i } : WordGroup) =
      qrWord (vword l.a i) (vword l.b i) (vword l.c i) (vword l.d i)) ∧
    (∀ i, i < 4 →
      ({ a := vword (droundLane l).a i, b := vword (droundLane l).b (i + 1), c := vword (droundLane l).c (i + 2),
         d := vword (droundLane l).d (i + 3) } : WordGroup) =
      qrWord (vword m.a i) (vword m.b (i + 1)) (vword m.c (i + 2)) (vword m.d (i + 3)))

/-- R109: `QR`, `DIAG`, `UNDIAG` and `ROUNDS` with mask `0b111` act on each lane group as if it were alone: the new value of a lane
group is a function of its old value only, the same function for each. -/
def Obligations.LaneGroupsIndependent : Prop :=
  ∀ ops : List Instr,
    (ops = [.qr .l012] ∨ ops = [.diag .l012] ∨ ops = [.undiag .l012] ∨ ops = roundsOps .l012) →
    ∃ f : Lane → Lane, ∀ s : State, ∃ t, execList ops s = .next t ∧
      t = { s with lane0 := f s.lane0, lane1 := f s.lane1, lane2 := f s.lane2 }

/-- R145: `CTRADD3` leaves the counter three on and the nonce unchanged, and nothing else changed. -/
def Obligations.ThreeIncrementsAddThree : Prop :=
  ∀ s : State, ∃ t, execList ctradd3Ops s = .next t ∧ t = { s with cn := t.cn } ∧
    (q0 t.cn).toNat = ((q0 s.cn).toNat + 3) % 2 ^ 64 ∧ q1 t.cn = q1 s.cn

/-- R45, R46 (with D1): `vec` and `bytes` are inverse, and the 64-bit lane of eight bytes is their little-endian number. -/
def Obligations.ByteImageRoundTrip : Prop :=
  (∀ v : V128, bytesVec (vecBytes v) = v) ∧
  (∀ bs : List Byte, bs.length = 16 → vecBytes (bytesVec bs) = bs) ∧
  (∀ v : V128, (q0 v).toNat = v.w0.toNat + 2 ^ 32 * v.w1.toNat ∧ (q1 v).toNat = v.w2.toNat + 2 ^ 32 * v.w3.toNat)

/-- R127: after `LINIT lm; ROUNDS lm; FFADD lm` each lane group of the mask serialises to the keystream block of its counter. -/
def Obligations.LaneSerialisesToKeystream : Prop :=
  ∀ (lm : LaneMask) (s : State), ∃ t,
    execList (.linit lm :: roundsOps lm ++ [.ffadd lm]) s = .next t ∧
    t = { s with lane0 := t.lane0, lane1 := t.lane1, lane2 := t.lane2 } ∧
    ∀ k, k < laneCount lm → serLane (getLane t k) = ksblock s.sigma s.k0 s.k1 (counterVec s.cn k)

/-- R129, R128: one multi-lane group has the same effect on memory and on `CN` as three serial blocks at successive offsets, for every
placement of the buffers. Where the buffers overlap in part, or a slice runs past its buffer, it rests on D12 and on log 21. -/
def Obligations.MultiLaneEqualsThreeSerial : Prop :=
  ∀ s : State, ∃ t u v w,
    execList block3Ops s = .next t ∧
    execList block1Ops s = .next u ∧
    execList block1Ops { u with off := s.off + 64 } = .next v ∧
    execList block1Ops { v with off := s.off + 128 } = .next w ∧
    t.mem = w.mem ∧ t.cn = w.cn

/-! ## Reset and the host -/

/-- Log 14: `withFetchWord` lays an operation where the next step finds it: a micro-operation from every state, and a command at an
idle generator of the default width. The model's own function, not the spec's. -/
def Obligations.FetchWordIsFetchedNext : Prop :=
  (∀ (i : Instr) (s : State), i.format = .u → fetch (s.withFetchWord 8 (encode i)) = .microOp i) ∧
  (∀ (n : Nat) (s : State), s.cfg = Config.standard → n < 2 ^ 64 →
    fetch (s.withFetchWord 72 (encode (.gen n))) = .command (.gen n))

/-- R25, R230: reset leaves `PH` in `IDLE`, `BUSY` 0 and `DONE` 0. (Every other reset value is the log's and is not stated.) -/
def Obligations.ResetIsIdle : Prop :=
  State.reset.ph = .idle ∧ busy State.reset = false ∧ State.reset.done = false

/-- The invariants below hold at reset. That `REM` and `OFF` are 0 there is the model's choice (log 4). -/
def Obligations.ResetMeetsInvariants : Prop :=
  Memory.wf State.reset.mem = true ∧ ControlOk State.reset ∧ RunOk State.reset ∧ LoadedOk State.reset ∧ SavedOk State.reset

/-- R230, R231: a reset at any time leaves the generator idle with `DONE` 0 and touches no memory, but for `OUT` when a `GEN` was
running (log 13). -/
def Obligations.ResetDuringRun : Prop :=
  ∀ s : State, (hostReset s).ph = .idle ∧ (hostReset s).done = false ∧ (hostReset s).port = none ∧
    (hostReset s).place = s.place ∧ (hostReset s).cfg = s.cfg ∧
    (busy s = false → (hostReset s).mem = s.mem) ∧
    (∀ a, ¬ (s.place.outBase ≤ a ∧ a < s.place.outBase + s.place.outSize) →
      Memory.read (hostReset s).mem a = Memory.read s.mem a) ∧
    (Memory.wf s.mem = true → Memory.wf (hostReset s).mem = true)

/-- R60, R204 V4 and V5, R245: while `BUSY` is 1 the host has no move; while it is 0 it has each, and each changes what it says
only. The form of the moves is the model's (log 1, log 6, log 8), and so is that a presented word replaces one that waits
and leaves `DONE` and `BUSY` as they are until it is accepted (log 6), and that offsets past a space's size are not checked
(log 25). -/
def Obligations.HostMovesOnlyWhenIdle : Prop :=
  ∀ (s : State) (c : Nat) (p : Placement) (sp : Space) (off n : Nat) (v : List Byte),
    (busy s = true → hostPresent c s = none ∧ hostPlace p s = none ∧ hostWrite sp off v s = none ∧
      hostRead sp off n s = none) ∧
    (busy s = false → hostPresent c s = some { s with port := some c } ∧ hostPlace p s = some { s with place := p } ∧
      hostWrite sp off v s = some { s with mem := Memory.writeBytes s.mem (spaceBase s.place sp + off) v } ∧
      hostRead sp off n s = some (Memory.readBytes s.mem (spaceBase s.place sp + off) n))

/-! ## Invariants every step keeps, and whole-machine rules -/

/-- The memory keeps its canonical form, which is the model's own (log 3). -/
def Obligations.MemoryFormKept : Prop :=
  ∀ s t : State, Memory.wf s.mem = true → step s = .next t → Memory.wf t.mem = true

/-- R179, R18, R19, R166: the position stays one of those of R179 and `REM` and `OFF` keep their widths. That `RC` and `SUB` may hold
any value of their widths where R179 names none is the model's choice (log 26). -/
def Obligations.ControlWidthsAndPositionKept : Prop :=
  ∀ s t : State, ControlOk s → step s = .next t → ControlOk t

/-- R19, R50, R51, R13: a run keeps its contract and `OFF = 64 * (n - REM)` at every position. -/
def Obligations.RunContractKept : Prop :=
  ∀ s t : State, ControlOk s → RunOk s → step s = .next t → RunOk t

/-- R11, R14, R15, R176: through a run `SIGMA`, `K0`, `K1` and the nonce are those of memory, and the counter in `CN` is that of `WS`
plus the blocks counted. -/
def Obligations.LoadedRegistersKept : Prop :=
  ∀ s t : State, ControlOk s → RunOk s → LoadedOk s → step s = .next t → LoadedOk t

/-- R17, R22, R122: through `ROUND` and until the feed-forward add the saved copies are the initial vectors. -/
def Obligations.SavedCopiesKept : Prop :=
  ∀ s t : State, ControlOk s → SavedOk s → step s = .next t → SavedOk t

/-- R216, R200: a running generator in a reachable position whose `INC` is right always has a next state: nothing faults, nothing is
refused. -/
def Obligations.RunningStepAnswersNext : Prop :=
  ∀ s : State, s.ph ≠ .idle → ReachablePosition s → IncrementOk s → ∃ t, step s = .next t

/-- R21: `DONE` changes only to 1 at the end of `WRITEBACK` and to 0 at the acceptance of a `GEN`; `BUSY` changes there only. -/
def Obligations.FlagsChangeOnlyAtTheEnds : Prop :=
  ∀ s t : State, step s = .next t →
    (t.done = s.done ∨ (s.ph = .writeback ∧ t.ph = .idle ∧ t.done = true) ∨ (s.ph = .idle ∧ t.ph = .load ∧ t.done = false)) ∧
    (busy t = busy s ∨ (s.ph = .writeback ∧ t.ph = .idle ∧ t.done = true) ∨ (s.ph = .idle ∧ t.ph = .load ∧ t.done = false))

/-- R15, R147, R148: no operation but `LDWS` changes the nonce in `CN`, and none but `CTRINC` and `LDWS` changes the counter. -/
def Obligations.NonceAndCounterWriters : Prop :=
  ∀ (i : Instr) (s t : State), exec i s = .next t → i ≠ .ldws →
    q1 t.cn = q1 s.cn ∧ (i ≠ .ctrinc → t.cn = s.cn)

/-- R40, R147, R160: in a run only bytes of `OUT` and of `WS[32..39]` ever change: `CONST`, `INC`, the key `WS[0..31]` and the nonce
`WS[40..47]` keep theirs. No step changes the parameters or the placement. -/
def Obligations.OnlyOutAndCounterWritten : Prop :=
  ∀ s t : State, ControlOk s → RunOk s → LoadedOk s → step s = .next t →
    t.cfg = s.cfg ∧ t.place = s.place ∧
    ∀ a, ¬ (s.place.outBase ≤ a ∧ a < s.place.outBase + s.place.outSize) →
      ¬ (s.place.wsBase + 32 ≤ a ∧ a < s.place.wsBase + 40) → Memory.read t.mem a = Memory.read s.mem a

/-- R246, R181: control does not look at data: two states with the same control part that both go on, go on to states with the same
control part. In the step that ends `WRITEBACK` the equality of `REM` and `OFF` is the model's choice (log 5): R243 and U14 leave them
any value then, and the model's free values are drawn from the register's number, the counter and the old value alone. -/
def Obligations.ControlIndependentOfData : Prop :=
  ∀ s s' t t' : State, controlPart s = controlPart s' → step s = .next t → step s' = .next t' →
    controlPart t = controlPart t'

/-! ## Whole runs -/

/-- R180, R216, R170: from a presented `GEN n` that keeps the contract the generator takes the acceptance step and then exactly
`2 + 46 * floor(n/3) + 44 * (n mod 3)` micro-operations; it is idle with `DONE` 1 after the last of them and busy before.
That the port holds no command then is the model's choice (log 6). -/
def Obligations.RunLengthExact : Prop :=
  ∀ (s : State) (n : Nat), s.ph = .idle → n < 2 ^ s.cfg.bcw → Contract s n →
    (∀ j, j < 2 + 46 * (n / 3) + 44 * (n % 3) →
      ∃ u, Host.Core.run core (1 + j) (presentGen s n) = .next u ∧ busy u = true) ∧
    ∃ t, Host.Core.run core (1 + (2 + 46 * (n / 3) + 44 * (n % 3))) (presentGen s n) = .next t ∧
      busy t = false ∧ t.done = true ∧ t.port = none

/-- R178: the two levels agree: the run of the sequencer leaves every byte of memory as the function of R160 (`genMemory`) says. -/
def Obligations.RunComputesGen : Prop :=
  ∀ (s : State) (n : Nat), s.ph = .idle → n < 2 ^ s.cfg.bcw → Contract s n →
    ∃ t, Host.Core.run core (1 + runLength n) (presentGen s n) = .next t ∧ t.ph = .idle ∧ t.done = true ∧
      t.place = s.place ∧ t.cfg = s.cfg ∧ ∀ a, Memory.read t.mem a = Memory.read (genMemory s n) a

/-- R160, R128, R148: what the function of R160 leaves, byte by byte: output block `i` is input block `i` xor the keystream block of
counter `(c + i) mod 2^64`, whatever `n`; the stored counter is `(c + n) mod 2^64`; every other byte is as it was. -/
def Obligations.GenFunctionBytes : Prop :=
  ∀ (s : State) (n : Nat), PlacementOk s.place n →
    (∀ i j, i < n → j < 64 →
      Memory.read (genMemory s n) (s.place.outBase + 64 * i + j) =
        Memory.read s.mem (s.place.inBase + 64 * i + j) ^^^ (keystreamBlock s i).getD j 0) ∧
    (q0 (bytesVec (Memory.readBytes (genMemory s n) (s.place.wsBase + 32) 16))).toNat =
      ((q0 (bytesVec (memRead s .ws 32 16))).toNat + n) % 2 ^ 64 ∧
    (∀ a, ¬ (s.place.outBase ≤ a ∧ a < s.place.outBase + 64 * n) →
      ¬ (s.place.wsBase + 32 ≤ a ∧ a < s.place.wsBase + 40) → Memory.read (genMemory s n) a = Memory.read s.mem a)

/-- R163, R177, log 11: `GEN 0` runs `LDWS` and `CTRWR` and leaves every byte of memory as it was, with `DONE` 1. -/
def Obligations.ZeroBlocksChangeNothing : Prop :=
  ∀ s : State, s.ph = .idle → Contract s 0 →
    ∃ t, Host.Core.run core 3 (presentGen s 0) = .next t ∧ t.ph = .idle ∧ t.done = true ∧
      ∀ a, Memory.read t.mem a = Memory.read s.mem a

/-- R23, R26: no register carries information into a run: two idle states with the same parameters, placement, memory and presented
command leave the same memory, whatever their registers hold. That this is so of memory in the middle of a run, which U15 leaves
open, is the model's choice (log 24). -/
def Obligations.NoStateCarriedIntoRun : Prop :=
  ∀ (s s' t : State) (n k : Nat), s.ph = .idle → s'.ph = .idle → s.cfg = s'.cfg → s.place = s'.place → s.mem = s'.mem →
    Host.Core.run core k (presentGen s n) = .next t →
    ∃ t', Host.Core.run core k (presentGen s' n) = .next t' ∧ t.mem = t'.mem ∧ t.ph = t'.ph

/-- R142, R213: `GEN n` in place, the counter put back by the host, and `GEN n` again give the buffer back. -/
def Obligations.SecondRunUndoesFirst : Prop :=
  ∀ (s : State) (n : Nat), s.ph = .idle → n < 2 ^ s.cfg.bcw → Contract s n → s.place.inBase = s.place.outBase →
    ∃ t u v, Host.Core.run core (1 + runLength n) (presentGen s n) = .next t ∧
      hostWrite .ws 32 (memRead s .ws 32 8) t = some u ∧
      Host.Core.run core (1 + runLength n) (presentGen u n) = .next v ∧ v.done = true ∧
      ∀ a, s.place.outBase ≤ a → a < s.place.outBase + 64 * n → Memory.read v.mem a = Memory.read s.mem a

/-! ## The codes of the phases -/

/-- R76, R20: the codes of the phases in the 3-bit `PH`; a code names a phase exactly when it is that phase's, and 6 and 7 name none.
`BUSY` is 1 exactly when the code is not 0 (R21), and the code after reset is 0 (R25). The codes are the spec's own decision
(D9). -/
def Obligations.PhaseCodes : Prop :=
  phaseCode .idle = 0 ∧ phaseCode .load = 1 ∧ phaseCode .init = 2 ∧ phaseCode .round = 3 ∧ phaseCode .emit = 4 ∧
  phaseCode .writeback = 5 ∧ phaseOfCode 6 = none ∧ phaseOfCode 7 = none ∧
  (∀ (c : BitVec 3) (p : Phase), phaseOfCode c = some p ↔ phaseCode p = c) ∧
  (∀ s : State, phRegister s = phaseCode s.ph ∧ (busy s = true ↔ phRegister s ≠ 0)) ∧
  phRegister State.reset = 0
end

