-- ==== Sys2Proof/Laws/Memory.lean ====
section
/-! SUPPORT. The memory: a read after a write, the canonical form, and byte strings. -/

namespace Sys2Proof.Machine

theorem Memory.read_insert (m : Memory) (a : Nat) (b : Byte) (x : Nat) :
    Memory.read (Memory.insert m a b) x = if x = a then b else Memory.read m x := by
  induction m with
  | nil => simp [Memory.insert, Memory.read]
  | cons c t ih =>
    obtain ⟨y, v⟩ := c
    simp only [Memory.insert]
    split
    · simp [Memory.read]
    · split
      · subst_vars; simp only [Memory.read]; split <;> rfl
      · simp only [Memory.read, ih]
        split
        · subst_vars; simp [eq_comm] at *; omega
        · rfl

theorem Memory.read_erase (m : Memory) (a x : Nat) :
    Memory.read (Memory.erase m a) x = if x = a then Memory.blank a else Memory.read m x := by
  induction m with
  | nil => simp only [Memory.erase, List.filter_nil, Memory.read]; split <;> simp_all
  | cons c t ih =>
    obtain ⟨y, v⟩ := c
    simp only [Memory.erase] at ih ⊢
    by_cases h : y = a
    · subst h
      simp only [List.filter_cons, bne_self_eq_false, Bool.false_eq_true, if_false, ih, Memory.read]
      split <;> rfl
    · simp only [List.filter_cons, bne_iff_ne, ne_eq, h, not_false_eq_true, if_true, Memory.read, ih]
      split
      · subst_vars; simp [h]
      · rfl

/-- A read after a write: the byte written at its own address, every other address as before. -/
theorem Memory.read_write (m : Memory) (a : Nat) (b : Byte) (x : Nat) :
    Memory.read (Memory.write m a b) x = if x = a then b else Memory.read m x := by
  unfold Memory.write
  split
  · rw [Memory.read_erase]; simp_all
  · exact Memory.read_insert m a b x

@[simp] theorem Memory.read_write_same (m : Memory) (a : Nat) (b : Byte) :
    Memory.read (Memory.write m a b) a = b := by simp [Memory.read_write]

theorem Memory.read_write_other {m : Memory} {a x : Nat} {b : Byte} (h : x ≠ a) :
    Memory.read (Memory.write m a b) x = Memory.read m x := by simp [Memory.read_write, h]

/-! The canonical form -/

/-- Every address of a list of entries is above `a`. -/
def Memory.Above (a : Nat) (m : Memory) : Prop := ∀ c ∈ m, a < c.1

theorem Memory.rising_cons (c : Host.Cell) (m : Memory) :
    Memory.rising (c :: m) = true ↔ Memory.Above c.1 m ∧ Memory.rising m = true := by
  induction m generalizing c with
  | nil => simp [Memory.rising, Memory.Above]
  | cons c' t ih =>
    simp only [Memory.rising, Bool.and_eq_true, decide_eq_true_eq, ih, Memory.Above, List.mem_cons, forall_eq_or_imp]
    constructor
    · rintro ⟨h, hA, hR⟩
      exact ⟨⟨h, fun d hd => lt_trans h (hA d hd)⟩, hA, hR⟩
    · rintro ⟨⟨h, -⟩, hA, hR⟩
      exact ⟨h, hA, hR⟩

theorem Memory.wf_cons (c : Host.Cell) (m : Memory) :
    Memory.wf (c :: m) = true ↔ Memory.Above c.1 m ∧ c.2 ≠ Memory.blank c.1 ∧ Memory.wf m = true := by
  simp only [Memory.wf, Bool.and_eq_true, Memory.rising_cons, List.all_cons, bne_iff_ne, ne_eq]
  tauto

@[simp] theorem Memory.wf_nil : Memory.wf [] = true := rfl

theorem Memory.Above_insert {m : Memory} {a : Nat} {b : Byte} {y : Nat} (h : Memory.Above y m) (hy : y < a) :
    Memory.Above y (Memory.insert m a b) := by
  induction m with
  | nil => simpa [Memory.insert, Memory.Above] using hy
  | cons c t ih =>
    obtain ⟨x, v⟩ := c
    simp only [Memory.Above, List.mem_cons, forall_eq_or_imp] at h
    simp only [Memory.insert]
    split
    · simp only [Memory.Above, List.mem_cons, forall_eq_or_imp]; exact ⟨hy, h.1, h.2⟩
    · split
      · simp only [Memory.Above, List.mem_cons, forall_eq_or_imp]; exact ⟨hy, h.2⟩
      · simp only [Memory.Above, List.mem_cons, forall_eq_or_imp]; exact ⟨h.1, ih h.2⟩

theorem Memory.wf_insert {m : Memory} {a : Nat} {b : Byte} (h : Memory.wf m = true) (hb : b ≠ Memory.blank a) :
    Memory.wf (Memory.insert m a b) = true := by
  induction m with
  | nil => simpa [Memory.insert, Memory.wf, Memory.rising] using hb
  | cons c t ih =>
    obtain ⟨x, v⟩ := c
    rw [Memory.wf_cons] at h
    obtain ⟨hA, hv, ht⟩ := h
    simp only [Memory.insert]
    split
    · rename_i hlt
      rw [Memory.wf_cons, Memory.wf_cons]
      refine ⟨?_, hb, hA, hv, ht⟩
      simp only [Memory.Above, List.mem_cons, forall_eq_or_imp]
      exact ⟨hlt, fun d hd => lt_trans hlt (hA d hd)⟩
    · split
      · subst_vars; rw [Memory.wf_cons]; exact ⟨hA, hb, ht⟩
      · rw [Memory.wf_cons]
        refine ⟨Memory.Above_insert hA ?_, hv, ih ht⟩
        show x < a
        omega

theorem Memory.wf_erase {m : Memory} {a : Nat} (h : Memory.wf m = true) : Memory.wf (Memory.erase m a) = true := by
  induction m with
  | nil => rfl
  | cons c t ih =>
    rw [Memory.wf_cons] at h
    obtain ⟨hA, hv, ht⟩ := h
    have ih := ih ht
    unfold Memory.erase at ih ⊢
    rw [List.filter_cons]
    split
    · rw [Memory.wf_cons]
      exact ⟨fun d hd => hA d (List.mem_of_mem_filter hd), hv, ih⟩
    · exact ih

/-- A write keeps the canonical form. -/
theorem Memory.wf_write {m : Memory} (h : Memory.wf m = true) (a : Nat) (b : Byte) :
    Memory.wf (Memory.write m a b) = true := by
  unfold Memory.write
  split
  · exact Memory.wf_erase h
  · rename_i hb; exact Memory.wf_insert h hb

theorem Memory.wf_writeBytes {m : Memory} (h : Memory.wf m = true) (a : Nat) (bs : List Byte) :
    Memory.wf (Memory.writeBytes m a bs) = true := by
  induction bs generalizing m a with
  | nil => exact h
  | cons b t ih => exact ih (Memory.wf_write h a b) (a + 1)

theorem Memory.read_of_Above {m : Memory} {a : Nat} (h : Memory.Above a m) : Memory.read m a = Memory.blank a := by
  induction m with
  | nil => rfl
  | cons c t ih =>
    obtain ⟨x, v⟩ := c
    simp only [Memory.Above, List.mem_cons, forall_eq_or_imp] at h
    simp only [Memory.read]
    rw [if_neg (Nat.ne_of_lt h.1)]
    exact ih h.2

/-- The canonical form is one: memories in it that read alike are the same list. -/
theorem Memory.eq_of_read_eq {m m' : Memory} (h : Memory.wf m = true) (h' : Memory.wf m' = true)
    (hr : ∀ a, Memory.read m a = Memory.read m' a) : m = m' := by
  induction m generalizing m' with
  | nil =>
    cases m' with
    | nil => rfl
    | cons c' t' =>
      rw [Memory.wf_cons] at h'
      have := hr c'.1
      simp [Memory.read] at this
      exact absurd this.symm h'.2.1
  | cons c t ih =>
    rw [Memory.wf_cons] at h
    cases m' with
    | nil =>
      have := hr c.1
      simp [Memory.read] at this
      exact absurd this h.2.1
    | cons c' t' =>
      rw [Memory.wf_cons] at h'
      obtain ⟨x, v⟩ := c
      obtain ⟨x', v'⟩ := c'
      obtain ⟨hA, hv, ht⟩ := h
      obtain ⟨hA', hv', ht'⟩ := h'
      simp only at hA hv hA' hv'
      have hx : x = x' := by
        rcases Nat.lt_trichotomy x x' with hlt | heq | hgt
        · have h1 := hr x
          rw [Memory.read_of_Above (m := (x', v') :: t')] at h1
          · simp [Memory.read] at h1; exact absurd h1 hv
          · simp only [Memory.Above, List.mem_cons, forall_eq_or_imp]
            exact ⟨hlt, fun d hd => lt_trans hlt (hA' d hd)⟩
        · exact heq
        · have h1 := hr x'
          rw [Memory.read_of_Above (m := (x, v) :: t)] at h1
          · simp [Memory.read] at h1; exact absurd h1.symm hv'
          · simp only [Memory.Above, List.mem_cons, forall_eq_or_imp]
            exact ⟨hgt, fun d hd => lt_trans hgt (hA d hd)⟩
      subst hx
      have hv2 : v = v' := by have := hr x; simpa [Memory.read] using this
      subst hv2
      congr 1
      refine ih ht ht' fun a => ?_
      by_cases ha : a = x
      · subst ha; rw [Memory.read_of_Above hA, Memory.read_of_Above hA']
      · have := hr a; simpa [Memory.read, ha] using this

/-! Byte strings -/

@[simp] theorem Memory.readBytes_length (m : Memory) (a n : Nat) : (Memory.readBytes m a n).length = n := by
  induction n generalizing a with
  | zero => rfl
  | succ n ih => simp [Memory.readBytes, ih]

theorem Memory.readBytes_getElem? (m : Memory) (a n i : Nat) :
    (Memory.readBytes m a n)[i]? = if i < n then some (Memory.read m (a + i)) else none := by
  induction n generalizing a i with
  | zero => simp [Memory.readBytes]
  | succ n ih =>
    cases i with
    | zero => simp [Memory.readBytes]
    | succ i =>
      simp only [Memory.readBytes, List.getElem?_cons_succ, ih, Nat.add_lt_add_iff_right]
      rw [show a + 1 + i = a + (i + 1) by omega]

theorem Memory.readBytes_getD (m : Memory) (a n i : Nat) (h : i < n) :
    (Memory.readBytes m a n).getD i 0 = Memory.read m (a + i) := by
  rw [List.getD_eq_getElem?_getD, Memory.readBytes_getElem?, if_pos h]; rfl

/-- A read after a store of a byte string: the string at its own addresses, every other address as before. -/
theorem Memory.read_writeBytes (m : Memory) (a : Nat) (bs : List Byte) (x : Nat) :
    Memory.read (Memory.writeBytes m a bs) x =
      if a ≤ x ∧ x < a + bs.length then bs.getD (x - a) 0 else Memory.read m x := by
  induction bs generalizing m a with
  | nil => simp [Memory.writeBytes]
  | cons b t ih =>
    rw [Memory.writeBytes, ih, Memory.read_write, List.length_cons]
    by_cases h1 : x = a
    · subst h1
      rw [if_neg (by omega), if_pos rfl, if_pos (by omega)]
      simp
    · by_cases h2 : a + 1 ≤ x ∧ x < a + 1 + t.length
      · rw [if_pos h2, if_pos (by omega), show x - a = (x - (a + 1)) + 1 by omega, List.getD_cons_succ]
      · rw [if_neg h2, if_neg h1, if_neg (by omega)]

/-- Reads of the same bytes give the same string. -/
theorem Memory.readBytes_congr {m m' : Memory} {a n : Nat}
    (h : ∀ x, a ≤ x → x < a + n → Memory.read m x = Memory.read m' x) :
    Memory.readBytes m a n = Memory.readBytes m' a n := by
  induction n generalizing a with
  | zero => rfl
  | succ n ih =>
    simp only [Memory.readBytes]
    rw [h a (by omega) (by omega), ih fun x h1 h2 => h x (by omega) (by omega)]

/-- A store outside a range leaves what is read from it. -/
theorem Memory.readBytes_writeBytes_other {m : Memory} {a b n : Nat} {bs : List Byte}
    (h : b + n ≤ a ∨ a + bs.length ≤ b) :
    Memory.readBytes (Memory.writeBytes m a bs) b n = Memory.readBytes m b n := by
  refine Memory.readBytes_congr fun x h1 h2 => ?_
  rw [Memory.read_writeBytes, if_neg (by omega)]

/-- Reading back what was just stored. -/
theorem Memory.readBytes_writeBytes_same (m : Memory) (a : Nat) (bs : List Byte) :
    Memory.readBytes (Memory.writeBytes m a bs) a bs.length = bs := by
  apply List.ext_getElem?
  intro i
  rw [Memory.readBytes_getElem?]
  split
  · rename_i h
    rw [Memory.read_writeBytes, if_pos (by omega), Nat.add_sub_cancel_left, List.getD_eq_getElem?_getD]
    simp [h]
  · rename_i h
    simp at h
    simp [h]

end Sys2Proof.Machine
end

