-- ==== Sys2Proof/Laws/State.lean ====
section
/-! SUPPORT. What each update of the state does to each field, one lemma a field, so that no later proof unfolds a record
update. -/

namespace Sys2Proof.Machine

@[simp] theorem setRem_cfg (s : State) (v : Nat) : (setRem s v).cfg = s.cfg := rfl
@[simp] theorem setRem_place (s : State) (v : Nat) : (setRem s v).place = s.place := rfl
@[simp] theorem setRem_mem (s : State) (v : Nat) : (setRem s v).mem = s.mem := rfl
@[simp] theorem setRem_port (s : State) (v : Nat) : (setRem s v).port = s.port := rfl
@[simp] theorem setRem_sigma (s : State) (v : Nat) : (setRem s v).sigma = s.sigma := rfl
@[simp] theorem setRem_k0 (s : State) (v : Nat) : (setRem s v).k0 = s.k0 := rfl
@[simp] theorem setRem_k1 (s : State) (v : Nat) : (setRem s v).k1 = s.k1 := rfl
@[simp] theorem setRem_cn (s : State) (v : Nat) : (setRem s v).cn = s.cn := rfl
@[simp] theorem setRem_lane0 (s : State) (v : Nat) : (setRem s v).lane0 = s.lane0 := rfl
@[simp] theorem setRem_lane1 (s : State) (v : Nat) : (setRem s v).lane1 = s.lane1 := rfl
@[simp] theorem setRem_lane2 (s : State) (v : Nat) : (setRem s v).lane2 = s.lane2 := rfl
@[simp] theorem setRem_rem (s : State) (v : Nat) : (setRem s v).rem = v % 2 ^ s.cfg.bcw := rfl
@[simp] theorem setRem_off (s : State) (v : Nat) : (setRem s v).off = s.off := rfl
@[simp] theorem setRem_ph (s : State) (v : Nat) : (setRem s v).ph = s.ph := rfl
@[simp] theorem setRem_rc (s : State) (v : Nat) : (setRem s v).rc = s.rc := rfl
@[simp] theorem setRem_sub (s : State) (v : Nat) : (setRem s v).sub = s.sub := rfl
@[simp] theorem setRem_done (s : State) (v : Nat) : (setRem s v).done = s.done := rfl
@[simp] theorem setRem_freeIx (s : State) (v : Nat) : (setRem s v).freeIx = s.freeIx := rfl

@[simp] theorem setOff_cfg (s : State) (v : Nat) : (setOff s v).cfg = s.cfg := rfl
@[simp] theorem setOff_place (s : State) (v : Nat) : (setOff s v).place = s.place := rfl
@[simp] theorem setOff_mem (s : State) (v : Nat) : (setOff s v).mem = s.mem := rfl
@[simp] theorem setOff_port (s : State) (v : Nat) : (setOff s v).port = s.port := rfl
@[simp] theorem setOff_sigma (s : State) (v : Nat) : (setOff s v).sigma = s.sigma := rfl
@[simp] theorem setOff_k0 (s : State) (v : Nat) : (setOff s v).k0 = s.k0 := rfl
@[simp] theorem setOff_k1 (s : State) (v : Nat) : (setOff s v).k1 = s.k1 := rfl
@[simp] theorem setOff_cn (s : State) (v : Nat) : (setOff s v).cn = s.cn := rfl
@[simp] theorem setOff_lane0 (s : State) (v : Nat) : (setOff s v).lane0 = s.lane0 := rfl
@[simp] theorem setOff_lane1 (s : State) (v : Nat) : (setOff s v).lane1 = s.lane1 := rfl
@[simp] theorem setOff_lane2 (s : State) (v : Nat) : (setOff s v).lane2 = s.lane2 := rfl
@[simp] theorem setOff_rem (s : State) (v : Nat) : (setOff s v).rem = s.rem := rfl
@[simp] theorem setOff_off (s : State) (v : Nat) : (setOff s v).off = v % 2 ^ (s.cfg.bcw + 6) := rfl
@[simp] theorem setOff_ph (s : State) (v : Nat) : (setOff s v).ph = s.ph := rfl
@[simp] theorem setOff_rc (s : State) (v : Nat) : (setOff s v).rc = s.rc := rfl
@[simp] theorem setOff_sub (s : State) (v : Nat) : (setOff s v).sub = s.sub := rfl
@[simp] theorem setOff_done (s : State) (v : Nat) : (setOff s v).done = s.done := rfl
@[simp] theorem setOff_freeIx (s : State) (v : Nat) : (setOff s v).freeIx = s.freeIx := rfl

@[simp] theorem setPos_cfg (s : State) (p : Phase) (r : BitVec 4) (b : BitVec 3) : (setPos s p r b).cfg = s.cfg := rfl
@[simp] theorem setPos_place (s : State) (p : Phase) (r : BitVec 4) (b : BitVec 3) : (setPos s p r b).place = s.place := rfl
@[simp] theorem setPos_mem (s : State) (p : Phase) (r : BitVec 4) (b : BitVec 3) : (setPos s p r b).mem = s.mem := rfl
@[simp] theorem setPos_port (s : State) (p : Phase) (r : BitVec 4) (b : BitVec 3) : (setPos s p r b).port = s.port := rfl
@[simp] theorem setPos_sigma (s : State) (p : Phase) (r : BitVec 4) (b : BitVec 3) : (setPos s p r b).sigma = s.sigma := rfl
@[simp] theorem setPos_k0 (s : State) (p : Phase) (r : BitVec 4) (b : BitVec 3) : (setPos s p r b).k0 = s.k0 := rfl
@[simp] theorem setPos_k1 (s : State) (p : Phase) (r : BitVec 4) (b : BitVec 3) : (setPos s p r b).k1 = s.k1 := rfl
@[simp] theorem setPos_cn (s : State) (p : Phase) (r : BitVec 4) (b : BitVec 3) : (setPos s p r b).cn = s.cn := rfl
@[simp] theorem setPos_lane0 (s : State) (p : Phase) (r : BitVec 4) (b : BitVec 3) : (setPos s p r b).lane0 = s.lane0 := rfl
@[simp] theorem setPos_lane1 (s : State) (p : Phase) (r : BitVec 4) (b : BitVec 3) : (setPos s p r b).lane1 = s.lane1 := rfl
@[simp] theorem setPos_lane2 (s : State) (p : Phase) (r : BitVec 4) (b : BitVec 3) : (setPos s p r b).lane2 = s.lane2 := rfl
@[simp] theorem setPos_rem (s : State) (p : Phase) (r : BitVec 4) (b : BitVec 3) : (setPos s p r b).rem = s.rem := rfl
@[simp] theorem setPos_off (s : State) (p : Phase) (r : BitVec 4) (b : BitVec 3) : (setPos s p r b).off = s.off := rfl
@[simp] theorem setPos_ph (s : State) (p : Phase) (r : BitVec 4) (b : BitVec 3) : (setPos s p r b).ph = p := rfl
@[simp] theorem setPos_rc (s : State) (p : Phase) (r : BitVec 4) (b : BitVec 3) : (setPos s p r b).rc = r := rfl
@[simp] theorem setPos_sub (s : State) (p : Phase) (r : BitVec 4) (b : BitVec 3) : (setPos s p r b).sub = b := rfl
@[simp] theorem setPos_done (s : State) (p : Phase) (r : BitVec 4) (b : BitVec 3) : (setPos s p r b).done = s.done := rfl
@[simp] theorem setPos_freeIx (s : State) (p : Phase) (r : BitVec 4) (b : BitVec 3) : (setPos s p r b).freeIx = s.freeIx := rfl

@[simp] theorem setDone_cfg (s : State) (v : Bool) : (setDone s v).cfg = s.cfg := rfl
@[simp] theorem setDone_place (s : State) (v : Bool) : (setDone s v).place = s.place := rfl
@[simp] theorem setDone_mem (s : State) (v : Bool) : (setDone s v).mem = s.mem := rfl
@[simp] theorem setDone_port (s : State) (v : Bool) : (setDone s v).port = s.port := rfl
@[simp] theorem setDone_sigma (s : State) (v : Bool) : (setDone s v).sigma = s.sigma := rfl
@[simp] theorem setDone_k0 (s : State) (v : Bool) : (setDone s v).k0 = s.k0 := rfl
@[simp] theorem setDone_k1 (s : State) (v : Bool) : (setDone s v).k1 = s.k1 := rfl
@[simp] theorem setDone_cn (s : State) (v : Bool) : (setDone s v).cn = s.cn := rfl
@[simp] theorem setDone_lane0 (s : State) (v : Bool) : (setDone s v).lane0 = s.lane0 := rfl
@[simp] theorem setDone_lane1 (s : State) (v : Bool) : (setDone s v).lane1 = s.lane1 := rfl
@[simp] theorem setDone_lane2 (s : State) (v : Bool) : (setDone s v).lane2 = s.lane2 := rfl
@[simp] theorem setDone_rem (s : State) (v : Bool) : (setDone s v).rem = s.rem := rfl
@[simp] theorem setDone_off (s : State) (v : Bool) : (setDone s v).off = s.off := rfl
@[simp] theorem setDone_ph (s : State) (v : Bool) : (setDone s v).ph = s.ph := rfl
@[simp] theorem setDone_rc (s : State) (v : Bool) : (setDone s v).rc = s.rc := rfl
@[simp] theorem setDone_sub (s : State) (v : Bool) : (setDone s v).sub = s.sub := rfl
@[simp] theorem setDone_done (s : State) (v : Bool) : (setDone s v).done = v := rfl
@[simp] theorem setDone_freeIx (s : State) (v : Bool) : (setDone s v).freeIx = s.freeIx := rfl

@[simp] theorem memWrite_cfg (s : State) (sp : Space) (o : Nat) (v : List Byte) : (memWrite s sp o v).cfg = s.cfg := rfl
@[simp] theorem memWrite_place (s : State) (sp : Space) (o : Nat) (v : List Byte) : (memWrite s sp o v).place = s.place := rfl
@[simp] theorem memWrite_mem (s : State) (sp : Space) (o : Nat) (v : List Byte) : (memWrite s sp o v).mem = Memory.writeBytes s.mem (spaceBase s.place sp + o) v := rfl
@[simp] theorem memWrite_port (s : State) (sp : Space) (o : Nat) (v : List Byte) : (memWrite s sp o v).port = s.port := rfl
@[simp] theorem memWrite_sigma (s : State) (sp : Space) (o : Nat) (v : List Byte) : (memWrite s sp o v).sigma = s.sigma := rfl
@[simp] theorem memWrite_k0 (s : State) (sp : Space) (o : Nat) (v : List Byte) : (memWrite s sp o v).k0 = s.k0 := rfl
@[simp] theorem memWrite_k1 (s : State) (sp : Space) (o : Nat) (v : List Byte) : (memWrite s sp o v).k1 = s.k1 := rfl
@[simp] theorem memWrite_cn (s : State) (sp : Space) (o : Nat) (v : List Byte) : (memWrite s sp o v).cn = s.cn := rfl
@[simp] theorem memWrite_lane0 (s : State) (sp : Space) (o : Nat) (v : List Byte) : (memWrite s sp o v).lane0 = s.lane0 := rfl
@[simp] theorem memWrite_lane1 (s : State) (sp : Space) (o : Nat) (v : List Byte) : (memWrite s sp o v).lane1 = s.lane1 := rfl
@[simp] theorem memWrite_lane2 (s : State) (sp : Space) (o : Nat) (v : List Byte) : (memWrite s sp o v).lane2 = s.lane2 := rfl
@[simp] theorem memWrite_rem (s : State) (sp : Space) (o : Nat) (v : List Byte) : (memWrite s sp o v).rem = s.rem := rfl
@[simp] theorem memWrite_off (s : State) (sp : Space) (o : Nat) (v : List Byte) : (memWrite s sp o v).off = s.off := rfl
@[simp] theorem memWrite_ph (s : State) (sp : Space) (o : Nat) (v : List Byte) : (memWrite s sp o v).ph = s.ph := rfl
@[simp] theorem memWrite_rc (s : State) (sp : Space) (o : Nat) (v : List Byte) : (memWrite s sp o v).rc = s.rc := rfl
@[simp] theorem memWrite_sub (s : State) (sp : Space) (o : Nat) (v : List Byte) : (memWrite s sp o v).sub = s.sub := rfl
@[simp] theorem memWrite_done (s : State) (sp : Space) (o : Nat) (v : List Byte) : (memWrite s sp o v).done = s.done := rfl
@[simp] theorem memWrite_freeIx (s : State) (sp : Space) (o : Nat) (v : List Byte) : (memWrite s sp o v).freeIx = s.freeIx := rfl

@[simp] theorem takeCommand_cfg (s : State) : (takeCommand s).cfg = s.cfg := rfl
@[simp] theorem takeCommand_place (s : State) : (takeCommand s).place = s.place := rfl
@[simp] theorem takeCommand_mem (s : State) : (takeCommand s).mem = s.mem := rfl
@[simp] theorem takeCommand_port (s : State) : (takeCommand s).port = none := rfl
@[simp] theorem takeCommand_sigma (s : State) : (takeCommand s).sigma = s.sigma := rfl
@[simp] theorem takeCommand_k0 (s : State) : (takeCommand s).k0 = s.k0 := rfl
@[simp] theorem takeCommand_k1 (s : State) : (takeCommand s).k1 = s.k1 := rfl
@[simp] theorem takeCommand_cn (s : State) : (takeCommand s).cn = s.cn := rfl
@[simp] theorem takeCommand_lane0 (s : State) : (takeCommand s).lane0 = s.lane0 := rfl
@[simp] theorem takeCommand_lane1 (s : State) : (takeCommand s).lane1 = s.lane1 := rfl
@[simp] theorem takeCommand_lane2 (s : State) : (takeCommand s).lane2 = s.lane2 := rfl
@[simp] theorem takeCommand_rem (s : State) : (takeCommand s).rem = s.rem := rfl
@[simp] theorem takeCommand_off (s : State) : (takeCommand s).off = s.off := rfl
@[simp] theorem takeCommand_ph (s : State) : (takeCommand s).ph = s.ph := rfl
@[simp] theorem takeCommand_rc (s : State) : (takeCommand s).rc = s.rc := rfl
@[simp] theorem takeCommand_sub (s : State) : (takeCommand s).sub = s.sub := rfl
@[simp] theorem takeCommand_done (s : State) : (takeCommand s).done = s.done := rfl
@[simp] theorem takeCommand_freeIx (s : State) : (takeCommand s).freeIx = s.freeIx := rfl

@[simp] theorem mapLanes_cfg (s : State) (lm : LaneMask) (f : Nat → Lane → Lane) : (mapLanes lm f s).cfg = s.cfg := by cases lm <;> rfl
@[simp] theorem mapLanes_place (s : State) (lm : LaneMask) (f : Nat → Lane → Lane) : (mapLanes lm f s).place = s.place := by cases lm <;> rfl
@[simp] theorem mapLanes_mem (s : State) (lm : LaneMask) (f : Nat → Lane → Lane) : (mapLanes lm f s).mem = s.mem := by cases lm <;> rfl
@[simp] theorem mapLanes_port (s : State) (lm : LaneMask) (f : Nat → Lane → Lane) : (mapLanes lm f s).port = s.port := by cases lm <;> rfl
@[simp] theorem mapLanes_sigma (s : State) (lm : LaneMask) (f : Nat → Lane → Lane) : (mapLanes lm f s).sigma = s.sigma := by cases lm <;> rfl
@[simp] theorem mapLanes_k0 (s : State) (lm : LaneMask) (f : Nat → Lane → Lane) : (mapLanes lm f s).k0 = s.k0 := by cases lm <;> rfl
@[simp] theorem mapLanes_k1 (s : State) (lm : LaneMask) (f : Nat → Lane → Lane) : (mapLanes lm f s).k1 = s.k1 := by cases lm <;> rfl
@[simp] theorem mapLanes_cn (s : State) (lm : LaneMask) (f : Nat → Lane → Lane) : (mapLanes lm f s).cn = s.cn := by cases lm <;> rfl
@[simp] theorem mapLanes_lane0 (s : State) (lm : LaneMask) (f : Nat → Lane → Lane) : (mapLanes lm f s).lane0 = f 0 s.lane0 := by cases lm <;> rfl
@[simp] theorem mapLanes_rem (s : State) (lm : LaneMask) (f : Nat → Lane → Lane) : (mapLanes lm f s).rem = s.rem := by cases lm <;> rfl
@[simp] theorem mapLanes_off (s : State) (lm : LaneMask) (f : Nat → Lane → Lane) : (mapLanes lm f s).off = s.off := by cases lm <;> rfl
@[simp] theorem mapLanes_ph (s : State) (lm : LaneMask) (f : Nat → Lane → Lane) : (mapLanes lm f s).ph = s.ph := by cases lm <;> rfl
@[simp] theorem mapLanes_rc (s : State) (lm : LaneMask) (f : Nat → Lane → Lane) : (mapLanes lm f s).rc = s.rc := by cases lm <;> rfl
@[simp] theorem mapLanes_sub (s : State) (lm : LaneMask) (f : Nat → Lane → Lane) : (mapLanes lm f s).sub = s.sub := by cases lm <;> rfl
@[simp] theorem mapLanes_done (s : State) (lm : LaneMask) (f : Nat → Lane → Lane) : (mapLanes lm f s).done = s.done := by cases lm <;> rfl
@[simp] theorem mapLanes_freeIx (s : State) (lm : LaneMask) (f : Nat → Lane → Lane) : (mapLanes lm f s).freeIx = s.freeIx := by cases lm <;> rfl

@[simp] theorem freeRegisters_cfg (s : State) : (freeRegisters s).cfg = s.cfg := rfl
@[simp] theorem freeRegisters_place (s : State) : (freeRegisters s).place = s.place := rfl
@[simp] theorem freeRegisters_mem (s : State) : (freeRegisters s).mem = s.mem := rfl
@[simp] theorem freeRegisters_port (s : State) : (freeRegisters s).port = s.port := rfl
@[simp] theorem freeRegisters_sigma (s : State) : (freeRegisters s).sigma = s.sigma := rfl
@[simp] theorem freeRegisters_ph (s : State) : (freeRegisters s).ph = s.ph := rfl
@[simp] theorem freeRegisters_rc (s : State) : (freeRegisters s).rc = s.rc := rfl
@[simp] theorem freeRegisters_sub (s : State) : (freeRegisters s).sub = s.sub := rfl
@[simp] theorem freeRegisters_done (s : State) : (freeRegisters s).done = s.done := rfl
@[simp] theorem freeRegisters_freeIx (s : State) : (freeRegisters s).freeIx = s.freeIx + 1 := rfl

@[simp] theorem acceptGen_cfg (s : State) (n : Nat) : (acceptGen n s).cfg = s.cfg := rfl
@[simp] theorem acceptGen_place (s : State) (n : Nat) : (acceptGen n s).place = s.place := rfl
@[simp] theorem acceptGen_mem (s : State) (n : Nat) : (acceptGen n s).mem = s.mem := rfl
@[simp] theorem acceptGen_port (s : State) (n : Nat) : (acceptGen n s).port = s.port := rfl
@[simp] theorem acceptGen_sigma (s : State) (n : Nat) : (acceptGen n s).sigma = s.sigma := rfl
@[simp] theorem acceptGen_k0 (s : State) (n : Nat) : (acceptGen n s).k0 = s.k0 := rfl
@[simp] theorem acceptGen_k1 (s : State) (n : Nat) : (acceptGen n s).k1 = s.k1 := rfl
@[simp] theorem acceptGen_cn (s : State) (n : Nat) : (acceptGen n s).cn = s.cn := rfl
@[simp] theorem acceptGen_lane0 (s : State) (n : Nat) : (acceptGen n s).lane0 = s.lane0 := rfl
@[simp] theorem acceptGen_lane1 (s : State) (n : Nat) : (acceptGen n s).lane1 = s.lane1 := rfl
@[simp] theorem acceptGen_lane2 (s : State) (n : Nat) : (acceptGen n s).lane2 = s.lane2 := rfl
@[simp] theorem acceptGen_rem (s : State) (n : Nat) : (acceptGen n s).rem = n % 2 ^ s.cfg.bcw := rfl
@[simp] theorem acceptGen_off (s : State) (n : Nat) : (acceptGen n s).off = 0 % 2 ^ (s.cfg.bcw + 6) := rfl
@[simp] theorem acceptGen_ph (s : State) (n : Nat) : (acceptGen n s).ph = .load := rfl
@[simp] theorem acceptGen_rc (s : State) (n : Nat) : (acceptGen n s).rc = s.rc := rfl
@[simp] theorem acceptGen_sub (s : State) (n : Nat) : (acceptGen n s).sub = 0 := rfl
@[simp] theorem acceptGen_done (s : State) (n : Nat) : (acceptGen n s).done = false := rfl
@[simp] theorem acceptGen_freeIx (s : State) (n : Nat) : (acceptGen n s).freeIx = s.freeIx := rfl

@[simp] theorem combineLane_cfg (s : State) (k : Nat) : (combineLane k s).cfg = s.cfg := rfl
@[simp] theorem combineLane_place (s : State) (k : Nat) : (combineLane k s).place = s.place := rfl
@[simp] theorem combineLane_mem (s : State) (k : Nat) : (combineLane k s).mem = Memory.writeBytes s.mem (s.place.outBase + sliceOff s k)
      (xorBytes (Memory.readBytes s.mem (s.place.inBase + sliceOff s k) 64) (serLane (getLane s k))) := rfl
@[simp] theorem combineLane_port (s : State) (k : Nat) : (combineLane k s).port = s.port := rfl
@[simp] theorem combineLane_sigma (s : State) (k : Nat) : (combineLane k s).sigma = s.sigma := rfl
@[simp] theorem combineLane_k0 (s : State) (k : Nat) : (combineLane k s).k0 = s.k0 := rfl
@[simp] theorem combineLane_k1 (s : State) (k : Nat) : (combineLane k s).k1 = s.k1 := rfl
@[simp] theorem combineLane_cn (s : State) (k : Nat) : (combineLane k s).cn = s.cn := rfl
@[simp] theorem combineLane_lane0 (s : State) (k : Nat) : (combineLane k s).lane0 = s.lane0 := rfl
@[simp] theorem combineLane_lane1 (s : State) (k : Nat) : (combineLane k s).lane1 = s.lane1 := rfl
@[simp] theorem combineLane_lane2 (s : State) (k : Nat) : (combineLane k s).lane2 = s.lane2 := rfl
@[simp] theorem combineLane_rem (s : State) (k : Nat) : (combineLane k s).rem = s.rem := rfl
@[simp] theorem combineLane_off (s : State) (k : Nat) : (combineLane k s).off = s.off := rfl
@[simp] theorem combineLane_ph (s : State) (k : Nat) : (combineLane k s).ph = s.ph := rfl
@[simp] theorem combineLane_rc (s : State) (k : Nat) : (combineLane k s).rc = s.rc := rfl
@[simp] theorem combineLane_sub (s : State) (k : Nat) : (combineLane k s).sub = s.sub := rfl
@[simp] theorem combineLane_done (s : State) (k : Nat) : (combineLane k s).done = s.done := rfl
@[simp] theorem combineLane_freeIx (s : State) (k : Nat) : (combineLane k s).freeIx = s.freeIx := rfl

@[simp] theorem countGroup_cfg (s : State) : (countGroup s).cfg = s.cfg := rfl
@[simp] theorem countGroup_place (s : State) : (countGroup s).place = s.place := rfl
@[simp] theorem countGroup_mem (s : State) : (countGroup s).mem = s.mem := rfl
@[simp] theorem countGroup_port (s : State) : (countGroup s).port = s.port := rfl
@[simp] theorem countGroup_sigma (s : State) : (countGroup s).sigma = s.sigma := rfl
@[simp] theorem countGroup_k0 (s : State) : (countGroup s).k0 = s.k0 := rfl
@[simp] theorem countGroup_k1 (s : State) : (countGroup s).k1 = s.k1 := rfl
@[simp] theorem countGroup_cn (s : State) : (countGroup s).cn = s.cn := rfl
@[simp] theorem countGroup_lane0 (s : State) : (countGroup s).lane0 = s.lane0 := rfl
@[simp] theorem countGroup_lane1 (s : State) : (countGroup s).lane1 = s.lane1 := rfl
@[simp] theorem countGroup_lane2 (s : State) : (countGroup s).lane2 = s.lane2 := rfl
@[simp] theorem countGroup_rem (s : State) : (countGroup s).rem = (s.rem - groupSize s.rem) % 2 ^ s.cfg.bcw := rfl
@[simp] theorem countGroup_off (s : State) : (countGroup s).off = (s.off + 64 * groupSize s.rem) % 2 ^ (s.cfg.bcw + 6) := rfl
@[simp] theorem countGroup_ph (s : State) : (countGroup s).ph = s.ph := rfl
@[simp] theorem countGroup_rc (s : State) : (countGroup s).rc = s.rc := rfl
@[simp] theorem countGroup_sub (s : State) : (countGroup s).sub = s.sub := rfl
@[simp] theorem countGroup_done (s : State) : (countGroup s).done = s.done := rfl
@[simp] theorem countGroup_freeIx (s : State) : (countGroup s).freeIx = s.freeIx := rfl

@[simp] theorem mapLanes_lane1_l0 (s : State) (f : Nat → Lane → Lane) : (mapLanes .l0 f s).lane1 = s.lane1 := rfl
@[simp] theorem mapLanes_lane2_l0 (s : State) (f : Nat → Lane → Lane) : (mapLanes .l0 f s).lane2 = s.lane2 := rfl
@[simp] theorem mapLanes_lane1_l012 (s : State) (f : Nat → Lane → Lane) : (mapLanes .l012 f s).lane1 = f 1 s.lane1 := rfl
@[simp] theorem mapLanes_lane2_l012 (s : State) (f : Nat → Lane → Lane) : (mapLanes .l012 f s).lane2 = f 2 s.lane2 := rfl

@[simp] theorem dispatch_cfg (s : State) : (dispatch s).cfg = s.cfg := by unfold dispatch; split <;> rfl
@[simp] theorem dispatch_place (s : State) : (dispatch s).place = s.place := by unfold dispatch; split <;> rfl
@[simp] theorem dispatch_mem (s : State) : (dispatch s).mem = s.mem := by unfold dispatch; split <;> rfl
@[simp] theorem dispatch_port (s : State) : (dispatch s).port = s.port := by unfold dispatch; split <;> rfl
@[simp] theorem dispatch_sigma (s : State) : (dispatch s).sigma = s.sigma := by unfold dispatch; split <;> rfl
@[simp] theorem dispatch_k0 (s : State) : (dispatch s).k0 = s.k0 := by unfold dispatch; split <;> rfl
@[simp] theorem dispatch_k1 (s : State) : (dispatch s).k1 = s.k1 := by unfold dispatch; split <;> rfl
@[simp] theorem dispatch_cn (s : State) : (dispatch s).cn = s.cn := by unfold dispatch; split <;> rfl
@[simp] theorem dispatch_lane0 (s : State) : (dispatch s).lane0 = s.lane0 := by unfold dispatch; split <;> rfl
@[simp] theorem dispatch_lane1 (s : State) : (dispatch s).lane1 = s.lane1 := by unfold dispatch; split <;> rfl
@[simp] theorem dispatch_lane2 (s : State) : (dispatch s).lane2 = s.lane2 := by unfold dispatch; split <;> rfl
@[simp] theorem dispatch_rem (s : State) : (dispatch s).rem = s.rem := by unfold dispatch; split <;> rfl
@[simp] theorem dispatch_off (s : State) : (dispatch s).off = s.off := by unfold dispatch; split <;> rfl
@[simp] theorem dispatch_rc (s : State) : (dispatch s).rc = s.rc := by unfold dispatch; split <;> rfl
@[simp] theorem dispatch_done (s : State) : (dispatch s).done = s.done := by unfold dispatch; split <;> rfl
@[simp] theorem dispatch_freeIx (s : State) : (dispatch s).freeIx = s.freeIx := by unfold dispatch; split <;> rfl
@[simp] theorem dispatch_sub (s : State) : (dispatch s).sub = 0 := by unfold dispatch; split <;> rfl
theorem dispatch_ph (s : State) : (dispatch s).ph = if 1 ≤ s.rem then .init else .writeback := by unfold dispatch; split <;> rfl

@[simp] theorem complete_cfg (s : State) : (complete s).cfg = s.cfg := rfl
@[simp] theorem complete_place (s : State) : (complete s).place = s.place := rfl
@[simp] theorem complete_mem (s : State) : (complete s).mem = s.mem := rfl
@[simp] theorem complete_port (s : State) : (complete s).port = s.port := rfl
@[simp] theorem complete_sigma (s : State) : (complete s).sigma = s.sigma := rfl
@[simp] theorem complete_rc (s : State) : (complete s).rc = s.rc := rfl
@[simp] theorem complete_sub (s : State) : (complete s).sub = s.sub := rfl
@[simp] theorem complete_ph (s : State) : (complete s).ph = .idle := rfl
@[simp] theorem complete_done (s : State) : (complete s).done = true := rfl
@[simp] theorem complete_freeIx (s : State) : (complete s).freeIx = s.freeIx + 1 := rfl

/-! The codes of the phases (30_encoding.md R76). -/

@[simp] theorem phRegister_setPos (s : State) (p : Phase) (r : BitVec 4) (b : BitVec 3) :
    phRegister (setPos s p r b) = phaseCode p := rfl

/-- A code names a phase exactly when it is that phase's code. -/
theorem phaseOfCode_eq_some (c : BitVec 3) (p : Phase) : phaseOfCode c = some p ↔ phaseCode p = c := by
  revert c; cases p <;> decide

/-- The code tells the phases apart. -/
theorem phaseCode_inj {p q : Phase} : phaseCode p = phaseCode q ↔ p = q := by cases p <;> cases q <;> decide

end Sys2Proof.Machine
end

