-- ==== Sys2Proof/Laws/Operands.lean ====
section
/-! SUPPORT. The operand forms: what `for k in lm` does to each lane group, and what the launch check decides. -/

namespace Sys2Proof.Machine

@[simp] theorem mem_laneIndices (lm : LaneMask) (k : Nat) : k ∈ laneIndices lm ↔ k < laneCount lm := by
  cases lm <;> simp [laneIndices, laneCount]; omega

/-- Each lane group of the mask gets its new contents, each other keeps its own. -/
theorem getLane_mapLanes (lm : LaneMask) (f : Nat → Lane → Lane) (s : State) (k : Nat) (hk : k < 3) :
    getLane (mapLanes lm f s) k = if k < laneCount lm then f k (getLane s k) else getLane s k := by
  match k, hk with
  | 0, _ => cases lm <;> rfl
  | 1, _ => cases lm <;> rfl
  | 2, _ => cases lm <;> rfl

/-- `for k in lm` changes lane groups and nothing else. -/
theorem mapLanes_frame (lm : LaneMask) (f : Nat → Lane → Lane) (s : State) :
    mapLanes lm f s = { s with
      lane0 := (mapLanes lm f s).lane0, lane1 := (mapLanes lm f s).lane1, lane2 := (mapLanes lm f s).lane2 } := by
  cases lm <;> rfl

theorem overlaps_eq_false (b1 n1 b2 n2 : Nat) : overlaps b1 n1 b2 n2 = false ↔ DisjointRanges b1 n1 b2 n2 := by
  simp only [overlaps, decide_eq_false_iff_not, DisjointRanges]
  omega

theorem incrementHeld_iff (s : State) : incrementHeld s = true ↔ IncrementOk s := by
  simp only [incrementHeld, beq_iff_eq, IncrementOk, memRead, spaceBase, Nat.add_zero]
  exact Iff.rfl

/-- The launch check finds nothing exactly when the contract of R204 is kept. -/
theorem launchViolation_eq_none (s : State) (n : Nat) : launchViolation s n = none ↔ Contract s n := by
  have h1 : wrongSizes s.place n = false ↔ s.place.inSize = 64 * n ∧ s.place.outSize = 64 * n := by
    simp [wrongSizes]
  unfold launchViolation
  by_cases hs : wrongSizes s.place n = true
  · simp only [hs, if_true, reduceCtorEq, false_iff]
    rintro ⟨⟨ha, hb, -⟩, -⟩
    rw [h1.2 ⟨ha, hb⟩] at hs
    exact Bool.false_ne_true hs
  · rw [Bool.not_eq_true] at hs
    obtain ⟨ha, hb⟩ := h1.1 hs
    have h2 : partlyOverlapping s.place = false ↔
        s.place.inBase = s.place.outBase ∨ DisjointRanges s.place.inBase (64 * n) s.place.outBase (64 * n) := by
      rw [← overlaps_eq_false, partlyOverlapping, ha, hb]
      simp only [Bool.and_eq_false_iff, bne_eq_false_iff_eq]
      tauto
    have h3 : forbiddenOverlaps s.place = false ↔
        DisjointRanges s.place.outBase (64 * n) s.place.wsBase 48 ∧
        DisjointRanges s.place.outBase (64 * n) s.place.constBase 16 ∧
        DisjointRanges s.place.outBase (64 * n) s.place.incBase 16 ∧
        DisjointRanges (s.place.wsBase + 32) 16 s.place.inBase (64 * n) ∧
        DisjointRanges (s.place.wsBase + 32) 16 s.place.constBase 16 ∧
        DisjointRanges (s.place.wsBase + 32) 16 s.place.incBase 16 := by
      simp only [← overlaps_eq_false, forbiddenOverlaps, ha, hb, Bool.or_eq_false_iff, and_assoc]
    rw [hs]
    cases hp : partlyOverlapping s.place
    · cases hf : forbiddenOverlaps s.place
      · cases hi : incrementHeld s
        · have : ¬ IncrementOk s := by rw [← incrementHeld_iff, hi]; exact Bool.false_ne_true
          simp [Contract, this]
        · have := (incrementHeld_iff s).1 hi
          have h2 := h2.1 hp
          have h3 := h3.1 hf
          simp only [Bool.false_eq_true, if_false, if_true, true_iff]
          exact ⟨⟨ha, hb, h2, h3⟩, this⟩
      · simp only [Bool.false_eq_true, if_false, if_true, reduceCtorEq, false_iff]
        rintro ⟨⟨-, -, -, hr⟩, -⟩
        rw [h3.2 hr] at hf
        exact Bool.false_ne_true hf
    · simp only [Bool.false_eq_true, if_false, if_true, reduceCtorEq, false_iff]
      rintro ⟨⟨-, -, hr, -⟩, -⟩
      rw [h2.2 hr] at hp
      exact Bool.false_ne_true hp

end Sys2Proof.Machine
end

