-- ==== Sys2Proof/Laws/Vec.lean ====
section
/-! SUPPORT. The vector operators: 64-bit lanes, the counter adder, lengths of byte images, byte strings. -/

namespace Sys2Proof.Machine

@[simp] theorem q0_ofQ (lo hi : BitVec 64) : q0 (ofQ lo hi) = lo := by
  apply BitVec.eq_of_getLsbD_eq
  intro i hi'
  simp only [q0, ofQ, BitVec.getLsbD_append, BitVec.getLsbD_extractLsb']
  by_cases h : i < 32
  · simp [h]
  · simp [h, show i - 32 < 32 by omega, show 32 + (i - 32) = i by omega]

@[simp] theorem q1_ofQ (lo hi : BitVec 64) : q1 (ofQ lo hi) = hi := q0_ofQ hi lo

/-- A vector is the pair of its 64-bit lanes. -/
theorem ofQ_q0_q1 (v : V128) : ofQ (q0 v) (q1 v) = v := by
  obtain ⟨w0, w1, w2, w3⟩ := v
  simp only [ofQ, q0, q1, V128.mk.injEq]
  refine ⟨?_, ?_, ?_, ?_⟩ <;>
  · apply BitVec.eq_of_getLsbD_eq
    intro i hi
    simp only [BitVec.getLsbD_extractLsb', BitVec.getLsbD_append, hi, decide_true, Bool.true_and]
    simp [hi]

/-- Vectors with the same 64-bit lanes are equal. -/
theorem vec_eq_of_q {v u : V128} (h0 : q0 v = q0 u) (h1 : q1 v = q1 u) : v = u := by
  rw [← ofQ_q0_q1 v, ← ofQ_q0_q1 u, h0, h1]

@[simp] theorem q0_one : q0 one = 1 := by decide
@[simp] theorem q1_one : q1 one = 0 := by decide

@[simp] theorem q0_add64x2 (v u : V128) : q0 (add64x2 v u) = q0 v + q0 u := q0_ofQ _ _
@[simp] theorem q1_add64x2 (v u : V128) : q1 (add64x2 v u) = q1 v + q1 u := q1_ofQ _ _

@[simp] theorem q0_counterVec (cn : V128) (i : Nat) : q0 (counterVec cn i) = q0 cn + BitVec.ofNat 64 i := q0_ofQ _ _
@[simp] theorem q1_counterVec (cn : V128) (i : Nat) : q1 (counterVec cn i) = q1 cn := q1_ofQ _ _

theorem counterVec_zero (cn : V128) : counterVec cn 0 = cn := by
  apply vec_eq_of_q <;> simp

theorem counterVec_add (cn : V128) (i j : Nat) : counterVec (counterVec cn i) j = counterVec cn (i + j) := by
  apply vec_eq_of_q <;> simp [BitVec.ofNat_add, BitVec.add_assoc]

/-- One `CTRINC` is the counter one on (42_combine_and_counter.md R144). -/
theorem add64x2_one (cn : V128) : add64x2 cn one = counterVec cn 1 := by
  apply vec_eq_of_q <;> simp

/-- The lane counters of `LINIT` (41_lanes_and_block.md R122) are those of R160. -/
theorem cnPlus_eq (cn : V128) (k : Nat) : cnPlus cn k = counterVec cn k := by
  induction k with
  | zero => simp [cnPlus, counterVec_zero]
  | succ k ih => rw [cnPlus, ih, add64x2_one, counterVec_add]

@[simp] theorem wordBytes_length (w : W32) : (wordBytes w).length = 4 := rfl
@[simp] theorem vecBytes_length (v : V128) : (vecBytes v).length = 16 := rfl
@[simp] theorem serLane_length (l : Lane) : (serLane l).length = 64 := rfl
@[simp] theorem ksblock_length (sg k0 k1 cn : V128) : (ksblock sg k0 k1 cn).length = 64 := rfl
@[simp] theorem keystreamBlock_length (s : State) (i : Nat) : (keystreamBlock s i).length = 64 := rfl

@[simp] theorem xorBytes_length (x y : List Byte) : (xorBytes x y).length = min x.length y.length := by
  simp [xorBytes]

/-- Byte by byte (42_combine_and_counter.md R140). -/
theorem xorBytes_getD (x y : List Byte) (i : Nat) (hx : i < x.length) (hy : i < y.length) :
    (xorBytes x y).getD i 0 = x.getD i 0 ^^^ y.getD i 0 := by
  simp [xorBytes, List.getD_eq_getElem?_getD, hx, hy]

/-- The exclusive-or undoes itself. -/
theorem xorBytes_xorBytes (x y : List Byte) (h : x.length ≤ y.length) : xorBytes (xorBytes x y) y = x := by
  apply List.ext_getElem?
  intro i
  by_cases hi : i < x.length
  · simp [xorBytes, hi, show i < y.length by omega]
  · have : ¬ i < (xorBytes (xorBytes x y) y).length := by simp; omega
    rw [List.getElem?_eq_none (by omega), List.getElem?_eq_none (by omega)]

theorem vword_add (v u : V128) (i : Nat) : vword (add32x4 v u) i = vword v i + vword u i := by
  unfold vword; split <;> rfl

/-- Word `i` of a rotated vector (40_mixer.md R103). -/
theorem vword_rotw (v : V128) (k i : Nat) : vword (rotw v k) i = vword v (i + k) := by
  have h : ∀ j, j < 4 → vword (rotw v k) j = vword v (j + k) := by
    intro j hj
    match j, hj with
    | 0, _ => simp [vword, rotw]
    | 1, _ => rfl
    | 2, _ => rfl
    | 3, _ => rfl
  have hm : ∀ (u : V128) (j : Nat), vword u j = vword u (j % 4) := by intro u j; simp [vword]
  rw [hm, h _ (Nat.mod_lt _ (by omega)), hm v (i + k), hm v (i % 4 + k)]
  congr 1; omega

/-- Vectors with the same four words are equal. -/
theorem vec_eq_of_words {v u : V128} (h : ∀ i, i < 4 → vword v i = vword u i) : v = u := by
  obtain ⟨w0, w1, w2, w3⟩ := v
  obtain ⟨x0, x1, x2, x3⟩ := u
  have h0 := h 0 (by omega); have h1 := h 1 (by omega); have h2 := h 2 (by omega); have h3 := h 3 (by omega)
  simp only [vword] at h0 h1 h2 h3
  simp_all

end Sys2Proof.Machine
end

