-- ==== Sys2Proof/Laws/Exec.lean ====
section
/-! SUPPORT. What each meaning answers, once, and what every micro-operation leaves alone. -/

namespace Sys2Proof.Machine

theorem exec_qr (lm : LaneMask) (s : State) : exec (.qr lm) s = .next (mapLanes lm (fun _ l => qrLane l) s) := rfl
theorem exec_diag (lm : LaneMask) (s : State) : exec (.diag lm) s = .next (mapLanes lm (fun _ l => diagLane l) s) := rfl
theorem exec_undiag (lm : LaneMask) (s : State) :
    exec (.undiag lm) s = .next (mapLanes lm (fun _ l => undiagLane l) s) := rfl
theorem exec_ffadd (lm : LaneMask) (s : State) :
    exec (.ffadd lm) s = .next (mapLanes lm (fun _ l => ffaddLane l) s) := rfl
theorem exec_linit (lm : LaneMask) (s : State) :
    exec (.linit lm) s = .next (mapLanes lm (fun k _ => initLane s.sigma s.k0 s.k1 (cnPlus s.cn k)) s) := rfl
theorem exec_xorst (lm : LaneMask) (s : State) : exec (.xorst lm) s = .next (overLanes lm combineLane s) := rfl
theorem exec_ctrinc (s : State) : exec .ctrinc s = .next { s with cn := add64x2 s.cn one } := rfl
theorem exec_ctrwr (s : State) : exec .ctrwr s = .next (memWrite s .ws 32 (vecBytes s.cn)) := rfl

theorem overLanes_l0 (f : Nat → State → State) (s : State) : overLanes .l0 f s = f 0 s := rfl
theorem overLanes_l012 (f : Nat → State → State) (s : State) : overLanes .l012 f s = f 2 (f 1 (f 0 s)) := rfl

/-- Combining a slice changes memory and nothing else. -/
theorem combineLane_frame (k : Nat) (s : State) : combineLane k s = { s with mem := (combineLane k s).mem } := rfl

/-- The stores of `XORST` change memory and nothing else. -/
theorem overLanes_combineLane_frame (lm : LaneMask) (s : State) :
    overLanes lm combineLane s = { s with mem := (overLanes lm combineLane s).mem } := by
  cases lm <;> rfl

@[simp] theorem getLane_combineLane (k j : Nat) (s : State) : getLane (combineLane k s) j = getLane s j := by
  unfold getLane; split <;> rfl

@[simp] theorem sliceOff_combineLane (k j : Nat) (s : State) : sliceOff (combineLane k s) j = sliceOff s j := rfl

/-- A byte after the slice of one lane group is combined. -/
theorem read_combineLane (k : Nat) (s : State) (a : Nat) :
    Memory.read (combineLane k s).mem a =
      if s.place.outBase + sliceOff s k ≤ a ∧ a < s.place.outBase + sliceOff s k + 64 then
        Memory.read s.mem (s.place.inBase + (a - s.place.outBase)) ^^^
          (serLane (getLane s k)).getD (a - (s.place.outBase + sliceOff s k)) 0
      else Memory.read s.mem a := by
  rw [combineLane_mem, Memory.read_writeBytes]
  simp only [xorBytes_length, Memory.readBytes_length, serLane_length, Nat.min_self]
  split
  · rename_i h
    rw [xorBytes_getD _ _ _ (by simp; omega) (by simp; omega), Memory.readBytes_getD _ _ _ _ (by omega),
      show s.place.inBase + sliceOff s k + (a - (s.place.outBase + sliceOff s k)) = s.place.inBase + (a - s.place.outBase) by
        omega]
  · rfl

/-- A micro-operation leaves the control part alone: only the sequencer and `GEN` write it (10_state.md R25). -/
theorem exec_controlPart {i : Instr} {s t : State} (h : exec i s = .next t) (hi : i.format = .u) :
    controlPart t = controlPart s := by
  cases i with
  | gen n => simp [Instr.format] at hi
  | ldws =>
    simp only [exec, execLdws] at h
    split at h
    · cases h; rfl
    · cases h
  | linit lm => cases h; cases lm <;> rfl
  | qr lm => cases h; cases lm <;> rfl
  | diag lm => cases h; cases lm <;> rfl
  | undiag lm => cases h; cases lm <;> rfl
  | ffadd lm => cases h; cases lm <;> rfl
  | xorst lm => cases h; cases lm <;> rfl
  | ctrinc => cases h; rfl
  | ctrwr => cases h; rfl

/-- Only `XORST` and `CTRWR` store (20_memory.md R48). -/
theorem exec_mem {i : Instr} {s t : State} (h : exec i s = .next t) (hx : ∀ lm, i ≠ .xorst lm) (hw : i ≠ .ctrwr) :
    t.mem = s.mem := by
  cases i with
  | gen n =>
    simp only [exec, execGen] at h
    split at h
    · cases h
    · split at h
      · cases h
      · cases h; rfl
  | ldws =>
    simp only [exec, execLdws] at h
    split at h
    · cases h; rfl
    · cases h
  | linit lm => cases h; cases lm <;> rfl
  | qr lm => cases h; cases lm <;> rfl
  | diag lm => cases h; cases lm <;> rfl
  | undiag lm => cases h; cases lm <;> rfl
  | ffadd lm => cases h; cases lm <;> rfl
  | xorst lm => exact absurd rfl (hx lm)
  | ctrinc => cases h; rfl
  | ctrwr => exact absurd rfl hw

/-- An accepted `GEN` (43_sequencer.md R170). -/
theorem execGen_eq_next {n : Nat} {s t : State} :
    execGen n s = .next t ↔ s.ph = .idle ∧ Contract s n ∧ t = acceptGen n s := by
  unfold execGen busy
  cases hp : s.ph <;> simp
  cases hv : launchViolation s n with
  | none => rw [← launchViolation_eq_none, hv]; simp [eq_comm]
  | some r => rw [← launchViolation_eq_none, hv]; simp

end Sys2Proof.Machine
end

