-- ==== Sys2Proof/Laws/PerInstr.lean ====
section
/-! SUPPORT. A statement about each operation as syntax: its word has the bits its row of the opcode table fixes
(30_encoding.md R75, spec/opcode_table.json). -/

namespace Sys2Proof.Laws.MatchesRow

/-- The low eight bits of the word of an operation, under the row's `mask`, are the row's `match`. -/
def Statement (i : Instr) : Prop := BitVec.ofNat 8 (encode i) &&& opcodeMask i = opcodeMatch i

theorem gen (n : Nat) : Statement (.gen n) := by
  have h : BitVec.ofNat 8 (n * 256 + 1) = 1#8 := by
    apply BitVec.eq_of_toNat_eq
    simp
  show BitVec.ofNat 8 (n * 256 + 1) &&& 0xFF#8 = 0x01#8
  rw [h]; decide
theorem ldws : Statement .ldws := by unfold Statement; decide
theorem linit (lm : LaneMask) : Statement (.linit lm) := by unfold Statement; cases lm <;> decide
theorem qr (lm : LaneMask) : Statement (.qr lm) := by unfold Statement; cases lm <;> decide
theorem diag (lm : LaneMask) : Statement (.diag lm) := by unfold Statement; cases lm <;> decide
theorem undiag (lm : LaneMask) : Statement (.undiag lm) := by unfold Statement; cases lm <;> decide
theorem ffadd (lm : LaneMask) : Statement (.ffadd lm) := by unfold Statement; cases lm <;> decide
theorem xorst (lm : LaneMask) : Statement (.xorst lm) := by unfold Statement; cases lm <;> decide
theorem ctrinc : Statement .ctrinc := by unfold Statement; decide
theorem ctrwr : Statement .ctrwr := by unfold Statement; decide

end Sys2Proof.Laws.MatchesRow
end

