-- ==== Sys2Proof/Laws/Sequencer.lean ====
section
/-! SUPPORT. The sequencer: what each phase issues, and the step as what was issued followed by the transition. -/

namespace Sys2Proof.Machine

theorem laneMaskOf_pos {rem : Nat} (h : 1 ≤ rem) : laneMaskOf rem = some (maskOf rem) := by
  by_cases h3 : 3 ≤ rem
  · rw [laneMaskOf, maskOf, if_pos h3, if_pos h3]
  · rw [laneMaskOf, maskOf, if_neg h3, if_pos h, if_neg h3]

theorem laneCount_maskOf (rem : Nat) : laneCount (maskOf rem) = groupSize rem := by
  unfold maskOf groupSize; split <;> rfl

theorem groupSize_le {rem : Nat} (h : 1 ≤ rem) : groupSize rem ≤ rem := by unfold groupSize; split <;> omega

theorem groupSize_pos (rem : Nat) : 1 ≤ groupSize rem := by unfold groupSize; split <;> omega

/-- The position check is R179. -/
theorem legalPosition_iff (s : State) : legalPosition s = true ↔ ReachablePosition s := by
  unfold legalPosition ReachablePosition
  cases s.ph <;> simp [groupSize, and_assoc]
  intro _
  split <;> simp only [decide_eq_true_eq]
  · constructor
    · rintro ⟨h1, h2⟩; exact ⟨h1, by omega, h2⟩
    · rintro ⟨h1, -, h2⟩; exact ⟨h1, h2⟩
  · constructor
    · rintro ⟨h1, h2⟩; exact ⟨by omega, by omega, h2⟩
    · rintro ⟨-, h1, h2⟩; exact ⟨h1 (by omega), h2⟩

/-- The word of a lane micro-operation decodes to it. -/
theorem decodeU_laneWord {rem uop : Nat} {op : LaneMask → Instr} (h : 1 ≤ rem)
    (h0 : decodeU (BitVec.ofNat 8 (wordU uop LaneMask.l0.bits)) = .ok (op .l0))
    (h1 : decodeU (BitVec.ofNat 8 (wordU uop LaneMask.l012.bits)) = .ok (op .l012)) :
    ∃ u, laneWord uop rem = some u ∧ decodeU u = .ok (op (maskOf rem)) := by
  refine ⟨BitVec.ofNat 8 (wordU uop (maskOf rem).bits), ?_, ?_⟩
  · simp [laneWord, laneMaskOf_pos h]
  · cases hm : maskOf rem <;> assumption

theorem fetch_of_issued {s : State} {u : Byte} {i : Instr} (hb : s.ph ≠ .idle) (hu : issuedWord s = some u)
    (hd : decodeU u = .ok i) : fetch s = .microOp i := by
  have : busy s = true := by simpa [busy] using hb
  simp [fetch, this, fetchMicroOp, hu, hd]

theorem fetch_load {s : State} (hp : s.ph = .load) (hr : ReachablePosition s) : fetch s = .microOp .ldws := by
  refine fetch_of_issued (u := 0x10) (by simp [hp]) ?_ (by decide)
  rw [issuedWord, if_pos ((legalPosition_iff s).2 hr), hp]

theorem fetch_lane {s : State} {uop : Nat} {op : LaneMask → Instr} (hb : s.ph ≠ .idle) (hr : 1 ≤ s.rem)
    (hw : issuedWord s = laneWord uop s.rem)
    (h0 : decodeU (BitVec.ofNat 8 (wordU uop LaneMask.l0.bits)) = .ok (op .l0))
    (h1 : decodeU (BitVec.ofNat 8 (wordU uop LaneMask.l012.bits)) = .ok (op .l012)) :
    fetch s = .microOp (op (maskOf s.rem)) := by
  obtain ⟨u, hu, hd⟩ := decodeU_laneWord hr h0 h1
  exact fetch_of_issued hb (hw.trans hu) hd

theorem fetch_init {s : State} (hp : s.ph = .init) (hr : ReachablePosition s) :
    fetch s = .microOp (.linit (maskOf s.rem)) := by
  have hr' := hr
  simp only [ReachablePosition, hp] at hr'
  refine fetch_lane (uop := 2) (by simp [hp]) hr'.2 ?_ (by decide) (by decide)
  rw [issuedWord, if_pos ((legalPosition_iff s).2 hr), hp]

/-- What phase `ROUND` issues at each sub-step (43_sequencer.md R165). -/
def roundOp (sub : Nat) : LaneMask → Instr :=
  match sub with
  | 0 => .qr
  | 1 => .diag
  | 2 => .qr
  | _ => .undiag

theorem fetch_round {s : State} (hp : s.ph = .round) (hr : ReachablePosition s) :
    fetch s = .microOp (roundOp s.sub.toNat (maskOf s.rem)) := by
  have hr' := hr
  simp only [ReachablePosition, hp] at hr'
  obtain ⟨-, -, hs, hrem⟩ := hr'
  have hi : ∀ n, s.sub.toNat = n → issuedWord s =
      (match n with | 0 => laneWord 3 s.rem | 1 => laneWord 4 s.rem | 2 => laneWord 3 s.rem | _ => laneWord 5 s.rem) := by
    intro n hn
    rw [issuedWord, if_pos ((legalPosition_iff s).2 hr), hp, hn]
    match n with
    | 0 => rfl
    | 1 => rfl
    | 2 => rfl
    | _ + 3 => rfl
  generalize hn : s.sub.toNat = n at hs ⊢
  have hi := hi n hn
  match n, hs with
  | 0, _ => exact fetch_lane (uop := 3) (by simp [hp]) hrem hi (by decide) (by decide)
  | 1, _ => exact fetch_lane (uop := 4) (by simp [hp]) hrem hi (by decide) (by decide)
  | 2, _ => exact fetch_lane (uop := 3) (by simp [hp]) hrem hi (by decide) (by decide)
  | 3, _ => exact fetch_lane (uop := 5) (by simp [hp]) hrem hi (by decide) (by decide)

/-- What phase `EMIT` issues at each sub-step (43_sequencer.md R165). -/
def emitOp (sub : Nat) (lm : LaneMask) : Instr :=
  match sub with
  | 0 => .ffadd lm
  | 1 => .xorst lm
  | _ => .ctrinc

theorem fetch_emit {s : State} (hp : s.ph = .emit) (hr : ReachablePosition s) :
    fetch s = .microOp (emitOp s.sub.toNat (maskOf s.rem)) := by
  have hr' := hr
  simp only [ReachablePosition, hp] at hr'
  obtain ⟨-, hs, -, hrem⟩ := hr'
  have hi : ∀ n, s.sub.toNat = n → issuedWord s =
      (match n with | 0 => laneWord 6 s.rem | 1 => laneWord 7 s.rem | _ => some 0x80) := by
    intro n hn
    rw [issuedWord, if_pos ((legalPosition_iff s).2 hr), hp, hn]
    match n with
    | 0 => rfl
    | 1 => rfl
    | _ + 2 => rfl
  generalize hn : s.sub.toNat = n at hs ⊢
  have hi := hi n hn
  match n with
  | 0 => exact fetch_lane (uop := 6) (by simp [hp]) hrem hi (by decide) (by decide)
  | 1 => exact fetch_lane (uop := 7) (by simp [hp]) hrem hi (by decide) (by decide)
  | n + 2 => exact fetch_of_issued (u := 0x80) (by simp [hp]) hi (show decodeU 0x80#8 = .ok .ctrinc by decide)

theorem fetch_writeback {s : State} (hp : s.ph = .writeback) (hr : ReachablePosition s) : fetch s = .microOp .ctrwr := by
  refine fetch_of_issued (u := 0x90) (by simp [hp]) ?_ (by decide)
  rw [issuedWord, if_pos ((legalPosition_iff s).2 hr), hp]

/-- A running step is the micro-operation issued, then the transition. -/
theorem step_of_microOp {s t : State} {i : Instr} (hf : fetch s = .microOp i) (he : exec i s = .next t) :
    step s = .next (advance t) := by
  simp [step, hf, he, andThen]

theorem step_of_command {s : State} {i : Instr} (hf : fetch s = .command i) : step s = exec i (takeCommand s) := by
  simp [step, hf]

theorem fetch_idle {s : State} (hp : s.ph = .idle) : fetch s = fetchCommand s := by
  simp [fetch, busy, hp]

/-- What a step that answers a next state has done: waited, accepted a `GEN`, or issued a micro-operation and moved on. -/
theorem step_cases {s t : State} (h : step s = .next t) :
    (s.ph = .idle ∧ s.port = none ∧ t = s) ∨
    (∃ n, n < 2 ^ s.cfg.bcw ∧ s.ph = .idle ∧ s.port ≠ none ∧ Contract s n ∧ t = acceptGen n (takeCommand s)) ∨
    (∃ i u, s.ph ≠ .idle ∧ ReachablePosition s ∧ i.format = .u ∧ fetch s = .microOp i ∧ exec i s = .next u ∧ t = advance u) := by
  unfold step at h
  by_cases hp : s.ph = .idle
  · rw [fetch_idle hp] at h
    unfold fetchCommand at h
    cases hport : s.port with
    | none => simp [hport] at h; exact .inl ⟨hp, rfl, h.symm⟩
    | some c =>
      simp only [hport, decodeCmd] at h
      by_cases hc : c % 256 = 1
      · simp only [hc, if_true, exec] at h
        obtain ⟨-, hk, ht⟩ := execGen_eq_next.1 h
        exact .inr (.inl ⟨_, Nat.mod_lt _ (by positivity), hp, by simp, hk, ht⟩)
      · simp [hc] at h
  · have hb : busy s = true := by simpa [busy] using hp
    simp only [fetch, hb, if_true] at h
    refine .inr (.inr ?_)
    unfold fetchMicroOp at h
    cases hw : issuedWord s with
    | none => simp [hw] at h
    | some w =>
      have hr : ReachablePosition s := by
        rw [← legalPosition_iff]
        by_contra hl
        simp [issuedWord, hl] at hw
      simp only [hw] at h
      cases hd : decodeU w with
      | error e => simp [hd] at h
      | ok i =>
        simp only [hd] at h
        have hf := fetch_of_issued hp hw hd
        cases he : exec i s with
        | fault r => simp [he, andThen] at h
        | refused r => simp [he, andThen] at h
        | next u =>
          simp only [he, andThen, Host.Outcome.next.injEq] at h
          refine ⟨i, u, hp, hr, ?_, hf, he, h.symm⟩
          by_contra hfmt
          have hg : ∃ n, i = .gen n := by cases i <;> simp [Instr.format] at hfmt ⊢
          obtain ⟨n, rfl⟩ := hg
          exact hp (execGen_eq_next.1 he).1

/-- The phase of a running step, what it issued, and how its transition went on. -/
theorem step_running {s t : State} (h : step s = .next t) (hp : s.ph ≠ .idle) :
    ReachablePosition s ∧ ∃ u, controlPart u = controlPart s ∧
      ((s.ph = .load ∧ exec .ldws s = .next u ∧ t = dispatch u) ∨
       (s.ph = .init ∧ exec (.linit (maskOf s.rem)) s = .next u ∧ t = setPos u .round 10 0) ∨
       (s.ph = .round ∧ exec (roundOp s.sub.toNat (maskOf s.rem)) s = .next u ∧ t = advanceRound u) ∨
       (s.ph = .emit ∧ exec (emitOp s.sub.toNat (maskOf s.rem)) s = .next u ∧ t = advanceEmit u) ∨
       (s.ph = .writeback ∧ exec .ctrwr s = .next u ∧ t = complete u)) := by
  obtain ⟨hi, -⟩ | ⟨-, -, hi, -⟩ | ⟨i, u, -, hr, hu, hf, he, ht⟩ := step_cases h
  · exact absurd hi hp
  · exact absurd hi hp
  have hc := exec_controlPart he hu
  have hph : u.ph = s.ph := congrArg ControlPart.ph hc
  refine ⟨hr, u, hc, ?_⟩
  subst ht
  unfold advance
  cases hs : s.ph with
  | idle => exact absurd hs hp
  | load =>
    rw [fetch_load hs hr, Fetched.microOp.injEq] at hf
    exact .inl ⟨rfl, hf ▸ he, by simp only [hph, hs]⟩
  | init =>
    rw [fetch_init hs hr, Fetched.microOp.injEq] at hf
    exact .inr (.inl ⟨rfl, hf ▸ he, by simp only [hph, hs]⟩)
  | round =>
    rw [fetch_round hs hr, Fetched.microOp.injEq] at hf
    exact .inr (.inr (.inl ⟨rfl, hf ▸ he, by simp only [hph, hs]⟩))
  | emit =>
    rw [fetch_emit hs hr, Fetched.microOp.injEq] at hf
    exact .inr (.inr (.inr (.inl ⟨rfl, hf ▸ he, by simp only [hph, hs]⟩)))
  | writeback =>
    rw [fetch_writeback hs hr, Fetched.microOp.injEq] at hf
    exact .inr (.inr (.inr (.inr ⟨rfl, hf ▸ he, by simp only [hph, hs]⟩)))

/-- The fields of equal control parts. -/
theorem controlPart_fields {s u : State} (h : controlPart u = controlPart s) :
    u.cfg = s.cfg ∧ u.place = s.place ∧ u.port = s.port ∧ u.rem = s.rem ∧ u.off = s.off ∧ u.ph = s.ph ∧ u.rc = s.rc ∧
      u.sub = s.sub ∧ u.done = s.done ∧ u.freeIx = s.freeIx := by
  simpa [controlPart] using h

/-- Where the transition out of the last sub-step of a phase `ROUND` or within it goes (43_sequencer.md R174). -/
theorem advanceRound_frame (s : State) :
    advanceRound s = { s with ph := (advanceRound s).ph, rc := (advanceRound s).rc, sub := (advanceRound s).sub } := by
  unfold advanceRound; split
  · rfl
  · split <;> rfl

end Sys2Proof.Machine
end

