-- ==== Sys2Proof/Tests/Slice0.lean ====
section
/-! SUPPORT. Tests of one step or one word each, with expected values from 30_encoding.md and 95_test_vectors.md, and for every
statement with hypotheses a state that meets them. -/

namespace Sys2Proof.Tests

open Sys2Proof.Machine

/-! ## Well-formedness -/

/-- R72: the block count has `BCW` bits. -/
theorem test_gen_too_wide_is_ill_formed : (Instr.gen (2 ^ 64)).wellFormed Config.standard = false := by decide
theorem test_gen_widest_is_well_formed : (Instr.gen (2 ^ 64 - 1)).wellFormed Config.standard = true := by decide

/-! ## Decoding: words written out from R72, R73, R75 -/

theorem test_decode_gen : decodeCmd Config.standard 0b10000000001 = .ok (.gen 4) := by decide
theorem test_decode_ldws : decodeU 0b00010000 = .ok .ldws := by decide
theorem test_decode_linit : decodeU 0b00100001 = .ok (.linit .l0) ∧ decodeU 0b00100111 = .ok (.linit .l012) := by decide
theorem test_decode_qr : decodeU 0b00110001 = .ok (.qr .l0) ∧ decodeU 0b00110111 = .ok (.qr .l012) := by decide
theorem test_decode_diag : decodeU 0b01000001 = .ok (.diag .l0) ∧ decodeU 0b01000111 = .ok (.diag .l012) := by decide
theorem test_decode_undiag : decodeU 0b01010001 = .ok (.undiag .l0) ∧ decodeU 0b01010111 = .ok (.undiag .l012) := by decide
theorem test_decode_ffadd : decodeU 0b01100001 = .ok (.ffadd .l0) ∧ decodeU 0b01100111 = .ok (.ffadd .l012) := by decide
theorem test_decode_xorst : decodeU 0b01110001 = .ok (.xorst .l0) ∧ decodeU 0b01110111 = .ok (.xorst .l012) := by decide
theorem test_decode_ctrinc : decodeU 0b10000000 = .ok .ctrinc := by decide
theorem test_decode_ctrwr : decodeU 0b10010000 = .ok .ctrwr := by decide

/-- V-ENC2, V-ENC4: reserved words are refused, each for its reason. -/
theorem test_reserved_words :
    decodeCmd Config.standard 0x400 = .error .cop ∧ decodeCmd Config.standard 0x110 = .error .cop ∧
    decodeU 0x07 = .error .uop ∧ decodeU 0x11 = .error .laneMask ∧ decodeU 0x20 = .error .laneMask ∧
    decodeU 0x26 = .error .laneMask ∧ decodeU 0x2f = .error .zBit ∧ decodeU 0xff = .error .zBit ∧
    decodeU 0xf1 = .error .uop := by decide

/-- The rows of the opcode table read as the table numbers them. -/
theorem test_table_rows :
    [0x01, 0x10, 0x21, 0x37, 0x41, 0x57, 0x61, 0x77, 0x80, 0x90].map (decodeTableWord 8) =
      [some (.gen 0), some .ldws, some (.linit .l0), some (.qr .l012), some (.diag .l0), some (.undiag .l012),
       some (.ffadd .l0), some (.xorst .l012), some .ctrinc, some .ctrwr] := by decide

/-! ## States -/

/-- Whether an outcome is a next state. -/
def goesOn (o : Host.Outcome State Fault Refusal) : Bool :=
  match o with
  | .next _ => true
  | .fault _ => false
  | .refused _ => false

/-- The next state of an outcome. -/
def after (o : Host.Outcome State Fault Refusal) : State :=
  match o with
  | .next s => s
  | .fault _ => State.reset
  | .refused _ => State.reset

/-- Why an outcome refuses. -/
def refusal (o : Host.Outcome State Fault Refusal) : Option Refusal :=
  match o with
  | .next _ => none
  | .fault _ => none
  | .refused r => some r

/-- Every row's word is fetched and runs as the first instruction after reset (log 14). -/
theorem test_rows_run_after_reset :
    [0x01, 0x10, 0x21, 0x27, 0x31, 0x37, 0x41, 0x47, 0x51, 0x57, 0x61, 0x67, 0x71, 0x77, 0x80, 0x90].all
      (fun w => goesOn (step (State.reset.withFetchWord 8 w))) = true := by decide +kernel

/-- Reset with buffers of `64n` bytes at the given addresses. -/
def launch (n inBase outBase : Nat) : State :=
  { State.reset with
    place := { Placement.reset with inBase := inBase, inSize := 64 * n, outBase := outBase, outSize := 64 * n } }

/-- Reset at another position, with the given `REM`, in a run of one block whose buffers are one. -/
def at1 (rem : Nat) (ph : Phase) (rc : BitVec 4) (sub : BitVec 3) : State :=
  { launch 1 80 80 with rem := rem, ph := ph, rc := rc, sub := sub }

/-- The bytes of V-LD1: `CONST` at 0, `WS` (key `00..1f`, counter `0xfffffffe`, nonce `00..07`) at 32. -/
def memLd1 : Memory :=
  Memory.writeBytes
    (Memory.writeBytes [] 0
      [0x65, 0x78, 0x70, 0x61, 0x6e, 0x64, 0x20, 0x33, 0x32, 0x2d, 0x62, 0x79, 0x74, 0x65, 0x20, 0x6b])
    32
    [0, 1, 2, 3, 4, 5, 6, 7, 8, 9, 10, 11, 12, 13, 14, 15, 16, 17, 18, 19, 20, 21, 22, 23, 24, 25, 26, 27, 28, 29, 30, 31,
     0xfe, 0xff, 0xff, 0xff, 0, 0, 0, 0, 0, 1, 2, 3, 4, 5, 6, 7]

/-- `INC` holding `00 00 00 00 01 00 ..`: one in the wrong word (V-LD1, corner). -/
def wrongInc : State := { State.reset with mem := Memory.writeBytes [] 16 [0, 0, 0, 0, 1] }

/-- A vector from its words. -/
def v4 (a b c d : W32) : V128 := { w0 := a, w1 := b, w2 := c, w3 := d }

/-- Four working vectors in lane group 0. -/
def lane0State (a b c d : V128) : State := { State.reset with lane0 := { resetLane with a := a, b := b, c := c, d := d } }

/-- R76: the codes of `PH`, and what the register holds in the rounds. -/
theorem test_phase_codes :
    [Phase.idle, .load, .init, .round, .emit, .writeback].map phaseCode = [0, 1, 2, 3, 4, 5] ∧
      phRegister (at1 1 .round 10 0) = 3 := by decide

/-! ## Operations, from 95_test_vectors.md -/

/-- V-LD1. -/
theorem test_ldws :
    let t := after (exec .ldws { State.reset with mem := memLd1 })
    t.sigma = v4 0x61707865 0x3320646e 0x79622d32 0x6b206574 ∧ t.k0 = v4 0x03020100 0x07060504 0x0b0a0908 0x0f0e0d0c ∧
    t.k1 = v4 0x13121110 0x17161514 0x1b1a1918 0x1f1e1d1c ∧ t.cn = v4 0xfffffffe 0 0x03020100 0x07060504 := by
  decide +kernel

/-- V-LD1, corner. -/
theorem test_ldws_wrong_increment : refusal (exec .ldws wrongInc) = some .wrongIncrement := by decide +kernel

/-- V-LI1: the carry of lane 2. -/
theorem test_linit :
    let t := after (exec (.linit .l012) { State.reset with cn := v4 0xfffffffe 0 0x03020100 0x07060504 })
    t.lane0.d = v4 0xfffffffe 0 0x03020100 0x07060504 ∧ t.lane1.sd = v4 0xffffffff 0 0x03020100 0x07060504 ∧
    t.lane2.d = v4 0 1 0x03020100 0x07060504 := by decide +kernel

/-- V-LI2 (a): the counter wraps and the nonce stays. -/
theorem test_linit_wrap :
    (after (exec (.linit .l012) { State.reset with cn := v4 0xffffffff 0xffffffff 0x03020100 0x07060504 })).lane2.d =
      v4 1 0 0x03020100 0x07060504 := by decide +kernel

/-- V-QR1. -/
theorem test_qr :
    let t := after (exec (.qr .l0)
      (lane0State (v4 0x11111111 0 0xffffffff 0x61707865) (v4 0x01020304 0 0xffffffff 0x03020100)
        (v4 0x9b8d6f43 0 0xffffffff 0x13121110) (v4 0x01234567 0 0xffffffff 0x00000001)))
    t.lane0.a = v4 0xea2a92f4 0 0xf0000ffd 0xabbaa25c ∧ t.lane0.b = v4 0xcb1cf8ce 0 0x88790878 0x3a465196 ∧
    t.lane0.c = v4 0x4581472e 0 0x0110fdef 0x6b3ca454 ∧ t.lane0.d = v4 0x5881c4bb 0 0x010ffdf0 0xdec62ed2 := by
  decide +kernel

/-- V-QR3: sums that wrap. -/
theorem test_qr_wraps :
    (after (exec (.qr .l0)
      (lane0State (v4 0xffffffff 1 0 0x80000000) (v4 1 0xffffffff 0 0x80000000) (v4 0 0 1 0) (v4 0 0 0 1)))).lane0.b =
      v4 0x08080000 0x00000000 0x08080080 0x84840808 := by decide +kernel

/-- V-DIAG1. -/
theorem test_diag :
    let t := after (exec (.diag .l0)
      (lane0State (v4 0xa0 0xa1 0xa2 0xa3) (v4 0xb0 0xb1 0xb2 0xb3) (v4 0xc0 0xc1 0xc2 0xc3) (v4 0xd0 0xd1 0xd2 0xd3)))
    t.lane0.a = v4 0xa0 0xa1 0xa2 0xa3 ∧ t.lane0.b = v4 0xb1 0xb2 0xb3 0xb0 ∧
    t.lane0.c = v4 0xc2 0xc3 0xc0 0xc1 ∧ t.lane0.d = v4 0xd3 0xd0 0xd1 0xd2 := by decide +kernel

/-- V-DIAG2. -/
theorem test_undiag :
    let t := after (exec (.undiag .l0)
      (lane0State (v4 0xa0 0xa1 0xa2 0xa3) (v4 0xb0 0xb1 0xb2 0xb3) (v4 0xc0 0xc1 0xc2 0xc3) (v4 0xd0 0xd1 0xd2 0xd3)))
    t.lane0.a = v4 0xa0 0xa1 0xa2 0xa3 ∧ t.lane0.b = v4 0xb3 0xb0 0xb1 0xb2 ∧
    t.lane0.c = v4 0xc2 0xc3 0xc0 0xc1 ∧ t.lane0.d = v4 0xd1 0xd2 0xd3 0xd0 := by decide +kernel

/-- V-FF1: the carry out of word 3 is dropped. -/
theorem test_ffadd :
    (after (exec (.ffadd .l0) { State.reset with lane0 := { resetLane with
      a := v4 0x4c704011 0x5d1d8d32 0x6c08300e 0xbd9d20df, sa := v4 0x61707865 0x3320646e 0x79622d32 0x6b206574 } })).lane0.a =
      v4 0xade0b876 0x903df1a0 0xe56a5d40 0x28bd8653 := by decide +kernel

/-- V-FF3: no carry from word 0 into word 1. -/
theorem test_ffadd_no_carry :
    (after (exec (.ffadd .l0) { State.reset with lane0 := { resetLane with
      d := v4 0x85b2ab5e 0x7a126157 0x0ab34539 0x44949a60, sd := v4 0xffffffff 0 0x03020100 0x07060504 } })).lane0.d =
      v4 0x85b2ab5d 0x7a126157 0x0db54639 0x4b9a9f64 := by decide +kernel

/-- V-XS1 (b), V-XS3: in place. -/
theorem test_xorst :
    Memory.readBytes (after (exec (.xorst .l0) { launch 1 80 80 with
      mem := Memory.writeBytes [] 80 [0xff, 0x00, 0xff, 0x00, 0x55, 0xaa, 0x55, 0xaa]
      lane0 := { resetLane with a := v4 0xade0b876 0x903df1a0 0xe56a5d40 0x28bd8653 } })).mem 80 8 =
      [0x89, 0xb8, 0x1f, 0xad, 0xf5, 0x5b, 0x68, 0x3a] := by decide +kernel

/-- V-XS2: lane 2 at `OFF = 192` combines offsets 320 and on. -/
theorem test_xorst_offsets :
    Memory.readBytes (after (exec (.xorst .l012) { launch 6 80 1000 with
      off := 192, lane2 := { resetLane with a := v4 0x04030201 0 0 0 } })).mem (1000 + 319) 6 =
      [0x00, 0x01, 0x02, 0x03, 0x04, 0x00] := by decide +kernel

/-- V-CI2, V-CI3. -/
theorem test_ctrinc :
    (after (exec .ctrinc { State.reset with cn := v4 0xffffffff 0 0x03020100 0x07060504 })).cn =
      v4 0 1 0x03020100 0x07060504 ∧
    (after (exec .ctrinc { State.reset with cn := v4 0xffffffff 0xffffffff 0x03020100 0x07060504 })).cn =
      v4 0 0 0x03020100 0x07060504 := by decide +kernel

/-- V-CI4. -/
theorem test_ctrinc_all_ones_nonce :
    (after (exec .ctrinc { State.reset with cn := v4 0xfffffffe 0x12345678 0xffffffff 0xffffffff })).cn =
      v4 0xffffffff 0x12345678 0xffffffff 0xffffffff := by decide +kernel

/-- V-CW1. -/
theorem test_ctrwr :
    Memory.readBytes (after (exec .ctrwr { State.reset with cn := v4 2 1 0x03020100 0x07060504 })).mem 64 16 =
      [2, 0, 0, 0, 1, 0, 0, 0, 0, 1, 2, 3, 4, 5, 6, 7] := by decide +kernel

/-- V-SEQ2: acceptance of `GEN 1`. -/
theorem test_gen :
    let t := after (step (presentGen (launch 1 80 80) 1))
    t.ph = .load ∧ t.sub = 0 ∧ t.rem = 1 ∧ t.off = 0 ∧ t.done = false ∧ busy t = true := by decide +kernel

/-- The launches of 95_test_vectors.md section 3 that a model must refuse (V1, V2, V3, V6, V7). -/
theorem test_gen_refusals :
    refusal (exec (.gen 2) { launch 2 80 80 with place := { (launch 2 80 80).place with outSize := 129 } }) =
      some .wrongBufferSize ∧
    refusal (exec (.gen 2) (launch 2 80 144)) = some .partialOverlap ∧
    refusal (exec (.gen 1) (launch 1 200 64)) = some .forbiddenOverlap ∧
    refusal (exec (.gen 0) wrongInc) = some .wrongIncrement ∧
    refusal (step { State.reset with port := some 0x402 }) = some .reservedCommand := by decide +kernel

/-- V-DR1: one double round from `(SIGMA, 0, 0, 0)`. -/
theorem test_dround :
    (droundLane { resetLane with a := v4 0x61707865 0x3320646e 0x79622d32 0x6b206574 }).a =
      v4 0xe45fd249 0x1bb820a6 0xe31a88ea 0xe667a9fe := by decide +kernel

/-- V-KS1, row 1 (its first sixteen bytes): the keystream block of the all-zero key, nonce and counter. -/
theorem test_ksblock :
    (ksblock (v4 0x61707865 0x3320646e 0x79622d32 0x6b206574) resetVec resetVec resetVec).take 16 =
      [0x76, 0xb8, 0xe0, 0xad, 0xa0, 0xf1, 0x3d, 0x90, 0x40, 0x5d, 0x6a, 0xe5, 0x53, 0x86, 0xbd, 0x28] := by
  decide +kernel

/-! ## Witnesses: the hypotheses of each statement are met together -/

theorem witness_DecodeAfterEncode : (Instr.gen (2 ^ 64 - 1)).wellFormed Config.standard = true := by decide

theorem witness_EncodeAfterDecode :
    (0xffffffffffffffff01 < 2 ^ (Config.standard.bcw + 8) ∧
      decodeWord Config.standard .cmd 0xffffffffffffffff01 = .ok (.gen (2 ^ 64 - 1))) ∧
    (0x90 < 2 ^ 8 ∧ decodeWord Config.standard .u 0x90 = .ok .ctrwr) := by decide

theorem witness_StepRunsDecodedInstruction :
    ((presentGen (launch 1 80 80) 1).ph = .idle ∧ (presentGen (launch 1 80 80) 1).port = some 0x101 ∧
      decodeCmd Config.standard 0x101 = .ok (.gen 1)) ∧
    ((at1 1 .load 0 0).ph ≠ .idle ∧ issuedWord (at1 1 .load 0 0) = some 0x10 ∧ decodeU 0x10 = .ok .ldws ∧
      goesOn (exec .ldws (at1 1 .load 0 0)) = true) ∧
    ({ wrongInc with ph := .load }.ph ≠ .idle ∧ issuedWord { wrongInc with ph := .load } = some 0x10 ∧
      refusal (exec .ldws { wrongInc with ph := .load }) = some .wrongIncrement) := by decide +kernel

/-- A reachable position of every phase, at the ends of the ranges of R179. -/
theorem witness_ReachablePositions :
    ReachablePosition State.reset ∧ ReachablePosition (at1 1 .load 0 0) ∧ ReachablePosition (at1 1 .init 0 0) ∧
    ReachablePosition (at1 1 .round 1 3) ∧ ReachablePosition (at1 3 .round 10 0) ∧ ReachablePosition (at1 2 .emit 0 2) ∧
    ReachablePosition (at1 3 .emit 0 4) ∧ ReachablePosition (at1 0 .writeback 0 0) := by
  refine ⟨trivial, ?_, ?_, ?_, ?_, ?_, ?_, ?_⟩ <;> simp [ReachablePosition, at1]

theorem witness_IssuedWordTable : ReachablePosition (at1 3 .emit 0 4) := by simp [ReachablePosition, at1]

theorem witness_SequencerIssuesLegalWords : (at1 1 .round 1 3).ph ≠ .idle ∧ ReachablePosition (at1 1 .round 1 3) := by
  simp [ReachablePosition, at1]

theorem witness_StepWaitsOrRefusesByName :
    (State.reset.ph = .idle ∧ State.reset.port = none) ∧
    ({ State.reset with port := some 0x402 }.ph = .idle ∧ (0x402 : Nat) % 256 ≠ 1) ∧
    ¬ ReachablePosition (at1 1 .round 0 0) ∧ ¬ ReachablePosition (at1 1 .round 11 0) ∧
    ¬ ReachablePosition (at1 2 .emit 0 3) ∧ ¬ ReachablePosition (at1 3 .emit 0 5) ∧
    ¬ ReachablePosition (at1 0 .init 0 0) := by
  refine ⟨by decide, by decide, ?_, ?_, ?_, ?_, ?_⟩ <;> simp [ReachablePosition, at1]

theorem witness_BusyStepIgnoresPort :
    (at1 1 .load 0 0).ph ≠ .idle ∧ goesOn (step (at1 1 .load 0 0)) = true ∧ { wrongInc with ph := .load }.ph ≠ .idle ∧
      refusal (step { wrongInc with ph := .load }) = some .wrongIncrement := by decide +kernel

/-- The contract is kept by empty buffers, by one buffer that is both, by neighbours, and by the smallest and the greatest `n` of
the default width. -/
theorem witness_GenAccepted :
    Contract State.reset 0 ∧ Contract (launch 1 80 80) 1 ∧ Contract (launch 2 80 208) 2 ∧
    Contract (launch (2 ^ 64 - 1) 80 80) (2 ^ 64 - 1) ∧ 2 ^ 64 - 1 < 2 ^ (launch (2 ^ 64 - 1) 80 80).cfg.bcw ∧
    (launch (2 ^ 64 - 1) 80 80).ph = .idle :=
  ⟨by decide, by decide, by decide, by decide +kernel, by decide, rfl⟩

theorem witness_GenRefusedExactly :
    (at1 1 .load 0 0).ph ≠ .idle ∧
    (State.reset.ph = .idle ∧ ¬ (State.reset.place.inSize = 64 * 1 ∧ State.reset.place.outSize = 64 * 1)) ∧
    (wrongInc.ph = .idle ∧ PlacementOk wrongInc.place 0 ∧ ¬ IncrementOk wrongInc) := by decide +kernel

theorem witness_LoadTransition :
    (at1 1 .load 0 0).ph = .load ∧ (at1 1 .load 0 0).sub = 0 ∧ goesOn (exec .ldws (at1 1 .load 0 0)) = true ∧
    (at1 0 .load 0 0).ph = .load ∧ goesOn (exec .ldws (at1 0 .load 0 0)) = true := by decide +kernel

theorem witness_InitTransition :
    (at1 2 .init 0 0).ph = .init ∧ (at1 2 .init 0 0).sub = 0 ∧ 1 ≤ (at1 2 .init 0 0).rem ∧ (at1 3 .init 0 0).sub = 0 := by
  decide

theorem witness_RoundTransition :
    (at1 1 .round 1 3).ph = .round ∧ 1 ≤ (at1 1 .round 1 3).rc.toNat ∧ (at1 1 .round 10 3).rc.toNat ≤ 10 ∧
    (at1 1 .round 1 3).sub.toNat ≤ 3 ∧ 1 ≤ (at1 1 .round 1 3).rem := by decide

theorem witness_EmitTransition :
    (at1 2 .emit 0 2).ph = .emit ∧ (at1 2 .emit 0 2).rc = 0 ∧ 1 ≤ (at1 2 .emit 0 2).rem ∧
    (at1 2 .emit 0 2).rem < 2 ^ (at1 2 .emit 0 2).cfg.bcw ∧ (at1 2 .emit 0 2).sub.toNat ≤ 1 + 1 ∧
    (at1 3 .emit 0 4).sub.toNat ≤ 3 + 1 ∧ (at1 3 .emit 0 4).off + 64 * 3 < 2 ^ ((at1 3 .emit 0 4).cfg.bcw + 6) := by decide

theorem witness_WritebackCompletes : (at1 0 .writeback 0 0).ph = .writeback ∧ (at1 0 .writeback 0 0).sub = 0 := by decide

theorem witness_LdwsLoads : IncrementOk State.reset := by decide
theorem witness_LdwsRefusesWrongIncrement : ¬ IncrementOk wrongInc := by decide
theorem witness_QuarterRoundAssignments : 0 < 1 ∧ 1 < 32 ∧ 0 < 31 ∧ 31 < 32 := by decide

theorem witness_XorstFrame :
    ¬ (spaceBase (launch 1 80 80).place .out + sliceOff (launch 1 80 80) 0 ≤ 79 ∧
        79 < spaceBase (launch 1 80 80).place .out + sliceOff (launch 1 80 80) 0 + 64 * laneCount .l0) ∧
    ¬ (spaceBase (launch 1 80 80).place .out + sliceOff (launch 1 80 80) 0 ≤ 144 ∧
        144 < spaceBase (launch 1 80 80).place .out + sliceOff (launch 1 80 80) 0 + 64 * laneCount .l0) := by decide

theorem witness_XorstCombines :
    (launch 1 80 80).place.inBase = (launch 1 80 80).place.outBase ∧
    DisjointRanges ((launch 3 80 272).place.inBase + (launch 3 80 272).off) (64 * laneCount .l012)
      ((launch 3 80 272).place.outBase + (launch 3 80 272).off) (64 * laneCount .l012) := by decide

theorem witness_CtrwrStores :
    ¬ (spaceBase State.reset.place .ws + 32 ≤ 63 ∧ 63 < spaceBase State.reset.place .ws + 48) ∧
    ¬ (spaceBase State.reset.place .ws + 32 ≤ 80 ∧ 80 < spaceBase State.reset.place .ws + 48) := by decide

theorem witness_ByteImageRoundTrip : (vecBytes one).length = 16 := by decide

theorem witness_ResetDuringRun :
    busy State.reset = false ∧ Memory.wf (at1 1 .load 0 0).mem = true ∧
    ¬ ((at1 1 .load 0 0).place.outBase ≤ 79 ∧
        79 < (at1 1 .load 0 0).place.outBase + (at1 1 .load 0 0).place.outSize) := by decide

theorem witness_HostMovesOnlyWhenIdle : busy (at1 1 .load 0 0) = true ∧ busy State.reset = false := by decide

theorem witness_FetchWordIsFetchedNext :
    (Instr.qr .l0).format = .u ∧ State.reset.cfg = Config.standard ∧ 2 ^ 64 - 1 < 2 ^ 64 := by decide

/-- The first state of the run of `GEN 1` that has been accepted. -/
theorem witness_loading : ControlOk (at1 1 .load 0 0) ∧ RunOk (at1 1 .load 0 0) ∧ LoadedOk (at1 1 .load 0 0) ∧
    SavedOk (at1 1 .load 0 0) := by
  refine ⟨⟨by decide, by decide, by simp [ReachablePosition, at1]⟩, fun _ => ⟨1, by decide, by decide, by decide⟩, ?_, ?_⟩
  · intro _ h; exact absurd rfl h
  · rintro (h | ⟨h, -⟩) <;> cases h

/-- The state of the same run before its `CTRWR`: the counter in `CN` is one on. -/
theorem witness_writing :
    let s : State := { at1 0 .writeback 0 0 with off := 64, cn := one }
    ControlOk s ∧ RunOk s ∧ LoadedOk s := by
  refine ⟨⟨by decide, by decide, by simp [ReachablePosition, at1]⟩, fun _ => ⟨1, by decide, by decide, by decide⟩, ?_⟩
  intro _ _; decide +kernel

theorem witness_MemoryFormKept :
    Memory.wf (at1 0 .writeback 0 0).mem = true ∧ goesOn (step (at1 0 .writeback 0 0)) = true := by decide +kernel

theorem witness_ControlWidthsAndPositionKept :
    ControlOk (at1 1 .load 0 0) ∧ ∃ t, step (at1 1 .load 0 0) = .next t := ⟨witness_loading.1, _, rfl⟩
theorem witness_RunContractKept :
    ControlOk (at1 1 .load 0 0) ∧ RunOk (at1 1 .load 0 0) ∧ ∃ t, step (at1 1 .load 0 0) = .next t :=
  ⟨witness_loading.1, witness_loading.2.1, _, rfl⟩
theorem witness_LoadedRegistersKept :
    ControlOk (at1 1 .load 0 0) ∧ RunOk (at1 1 .load 0 0) ∧ LoadedOk (at1 1 .load 0 0) ∧
      ∃ t, step (at1 1 .load 0 0) = .next t :=
  ⟨witness_loading.1, witness_loading.2.1, witness_loading.2.2.1, _, rfl⟩
theorem witness_SavedCopiesKept :
    ControlOk (at1 1 .init 0 0) ∧ SavedOk (at1 1 .init 0 0) ∧ ∃ t, step (at1 1 .init 0 0) = .next t := by
  refine ⟨⟨by decide, by decide, by simp [ReachablePosition, at1]⟩, ?_, _, rfl⟩
  rintro (h | ⟨h, -⟩) <;> cases h
theorem witness_RunningStepAnswersNext :
    (at1 1 .load 0 0).ph ≠ .idle ∧ ReachablePosition (at1 1 .load 0 0) ∧ IncrementOk (at1 1 .load 0 0) :=
  ⟨by decide, witness_loading.1.2.2, by decide⟩
theorem witness_FlagsChangeOnlyAtTheEnds :
    (∃ t, step (at1 0 .writeback 0 0) = .next t ∧ t.done ≠ (at1 0 .writeback 0 0).done) ∧
    (∃ t, step { presentGen (launch 1 80 80) 1 with done := true } = .next t ∧ t.done = false) ∧
    (∃ t, step State.reset = .next t ∧ t.done = State.reset.done) :=
  ⟨⟨_, rfl, by decide⟩, ⟨_, rfl, by decide⟩, ⟨_, rfl, rfl⟩⟩
theorem witness_NonceAndCounterWriters :
    (∃ t, exec .ctrinc State.reset = .next t) ∧ Instr.ctrinc ≠ .ldws ∧ (∃ t, exec .ctrwr State.reset = .next t) ∧
      Instr.ctrwr ≠ .ldws ∧ Instr.ctrwr ≠ .ctrinc := ⟨⟨_, rfl⟩, by decide, ⟨_, rfl⟩, by decide, by decide⟩
theorem witness_OnlyOutAndCounterWritten :
    let s : State := { at1 0 .writeback 0 0 with off := 64, cn := one }
    ControlOk s ∧ RunOk s ∧ LoadedOk s ∧ ∃ t, step s = .next t :=
  ⟨witness_writing.1, witness_writing.2.1, witness_writing.2.2, _, rfl⟩
theorem witness_ControlIndependentOfData :
    controlPart (at1 1 .init 0 0) = controlPart { at1 1 .init 0 0 with k0 := one } ∧
      (∃ t, step (at1 1 .init 0 0) = .next t) ∧ ∃ t, step { at1 1 .init 0 0 with k0 := one } = .next t :=
  ⟨rfl, ⟨_, rfl⟩, ⟨_, rfl⟩⟩

/-- `RunLengthExact`, `RunComputesGen` and `GenFunctionBytes` have the hypotheses of `GenAccepted`. -/
theorem witness_RunLengthExact :
    (launch 2 80 208).ph = .idle ∧ 2 < 2 ^ (launch 2 80 208).cfg.bcw ∧ Contract (launch 2 80 208) 2 := by decide +kernel
theorem witness_RunComputesGen :
    (launch 4 80 80).ph = .idle ∧ 4 < 2 ^ (launch 4 80 80).cfg.bcw ∧ Contract (launch 4 80 80) 4 := by decide +kernel
theorem witness_GenFunctionBytes : PlacementOk (launch 2 80 208).place 2 := by decide
theorem witness_ZeroBlocksChangeNothing : State.reset.ph = .idle ∧ Contract State.reset 0 := by decide
theorem witness_NoStateCarriedIntoRun :
    (launch 1 80 80).ph = .idle ∧ { launch 1 80 80 with k0 := one, rc := 7, done := true }.ph = .idle ∧
      ∃ t, Host.Core.run core 2 (presentGen (launch 1 80 80) 1) = .next t :=
  ⟨rfl, rfl, _, rfl⟩
theorem witness_SecondRunUndoesFirst :
    (launch 1 80 80).ph = .idle ∧ 1 < 2 ^ (launch 1 80 80).cfg.bcw ∧ Contract (launch 1 80 80) 1 ∧
      (launch 1 80 80).place.inBase = (launch 1 80 80).place.outBase := by decide +kernel

end Sys2Proof.Tests
end

section
/-! PROOFS. The quarter-round datapath (40_mixer.md R100, R101): the circular rotation as a number, the vector operators word by
word, and the two forms of the quarter round on a lane group. -/

namespace Sys2Proof.Machine

/-- The two parts of a circular rotation have no bit in common: the bits moved up stand from bit `n` on, the wrapped ones below. -/
theorem rotl32_parts_disjoint (w : W32) {n : Nat} (hn : n < 32) : (w <<< n) &&& (w >>> (32 - n)) = 0 := by
  apply BitVec.eq_of_getLsbD_eq
  intro i hi
  simp only [BitVec.getLsbD_and, BitVec.getLsbD_shiftLeft, BitVec.getLsbD_ushiftRight]
  by_cases hin : i < n
  · simp [hin]
  · have hout : w.getLsbD (32 - n + i) = false := BitVec.getLsbD_of_ge w _ (by omega)
    simp [hout]

/-- A circular left rotation as a number: the bits that stay, moved up, plus the bits that wrap. -/
theorem rotl32_toNat (w : W32) {n : Nat} (hn : n < 32) :
    (rotl32 w n).toNat = (w.toNat * 2 ^ n) % 2 ^ 32 + w.toNat / 2 ^ (32 - n) := by
  have hd := rotl32_parts_disjoint w hn
  calc (rotl32 w n).toNat
      = (w <<< n + w >>> (32 - n)).toNat := by rw [rotl32, BitVec.add_eq_or_of_and_eq_zero _ _ hd]
    _ = (w <<< n).toNat + (w >>> (32 - n)).toNat := BitVec.toNat_add_of_and_eq_zero hd
    _ = _ := by
      rw [BitVec.toNat_shiftLeft, BitVec.toNat_ushiftRight, Nat.shiftLeft_eq, Nat.shiftRight_eq_div_pow]

theorem vword_xor (v u : V128) (i : Nat) : vword (xor32x4 v u) i = vword v i ^^^ vword u i := by
  unfold vword; split <;> rfl

theorem vword_rotl (v : V128) (n i : Nat) : vword (rotl32x4 v n) i = rotl32 (vword v i) n := by
  unfold vword; split <;> rfl

/-- The quarter round word group by word group is the one on whole vectors, the two forms of R100. -/
theorem qrLane_eq_qrVectors (l : Lane) : qrLane l = qrVectors l := rfl

/-- Word position `i` of the whole-vector form depends on word position `i` of the four vectors alone, by the word-level quarter
round: each vector operator works word by word. -/
theorem vword_qrVectors (l : Lane) (i : Nat) :
    ({ a := vword (qrVectors l).a i, b := vword (qrVectors l).b i, c := vword (qrVectors l).c i,
       d := vword (qrVectors l).d i } : WordGroup) =
      qrWord (vword l.a i) (vword l.b i) (vword l.c i) (vword l.d i) := by
  simp only [qrVectors, qrWord, vword_add, vword_xor, vword_rotl]

/-- Lane group `k` is in the mask exactly when the mask is `0b111` or `k` is 0. -/
theorem lt_laneCount_iff (lm : LaneMask) {k : Nat} (hk : k < 3) : k < laneCount lm ↔ lm = .l012 ∨ k = 0 := by
  cases lm with
  | l0 => simp [laneCount]
  | l012 => simp [laneCount, hk]

/-- Settles O21: the assignments are those of `qrWord`, and the two shifted parts of a rotation share no bit, so that their
union is their sum. -/
theorem quarterRoundAssignments : Obligations.QuarterRoundAssignments :=
  fun _ _ _ _ => ⟨rfl, fun w _ _ hn => rotl32_toNat w hn⟩

/-- Settles O22: `QR` maps `qrLane` over the lane groups of the mask, and `qrLane` is the whole-vector form, which is the
word-level quarter round at each position. -/
theorem qrResult : Obligations.QrResult := by
  refine ⟨by decide, by decide, by decide, by decide, fun lm s => ⟨_, exec_qr lm s, mapLanes_frame lm _ s, ?_⟩⟩
  intro k hk
  have hl := getLane_mapLanes lm (fun _ l => qrLane l) s k hk
  simp only [lt_laneCount_iff lm hk] at hl
  split
  · next hm =>
    rw [hl, if_pos hm, qrLane_eq_qrVectors]
    exact ⟨rfl, fun i _ => vword_qrVectors (getLane s k) i⟩
  · next hm => rw [hl, if_neg hm]

end Sys2Proof.Machine
end

section
/-! PROOFS. `LINIT` and `FFADD` (41_lanes_and_block.md R122, R124): a lane group under the mask of its operation, the counter of a
lane and the sum of two words as numbers. -/

namespace Sys2Proof.Machine

/-- Lane group `k` after an operation on the lane groups of a mask, the mask written as the statements write it. -/
theorem getLane_mapLanes_mask (lm : LaneMask) (f : Nat → Lane → Lane) (s : State) {k : Nat} (hk : k < 3) :
    getLane (mapLanes lm f s) k = if lm = .l012 ∨ k = 0 then f k (getLane s k) else getLane s k := by
  simp only [getLane_mapLanes lm f s k hk, lt_laneCount_iff lm hk]

/-- The counter of lane `k` is one 64-bit number: the carry out of its low word is kept. -/
theorem q0_cnPlus_toNat (cn : V128) (k : Nat) : (q0 (cnPlus cn k)).toNat = ((q0 cn).toNat + k) % 2 ^ 64 := by
  rw [cnPlus_eq, q0_counterVec, BitVec.toNat_add, BitVec.toNat_ofNat, Nat.add_mod_mod]

theorem q1_cnPlus (cn : V128) (k : Nat) : q1 (cnPlus cn k) = q1 cn := by
  rw [cnPlus_eq, q1_counterVec]

/-- The words of a vector sum are 32-bit sums: no carry passes from one word to the next. -/
theorem vword_add_toNat (v u : V128) (i : Nat) :
    (vword (add32x4 v u) i).toNat = ((vword v i).toNat + (vword u i).toNat) % 2 ^ 32 := by
  rw [vword_add, BitVec.toNat_add]

/-- Settles O20: `LINIT` puts `initLane` in each lane group of the mask, which holds its four vectors twice; the lane's counter is
`CN` with `ONE` added `k` times in 64 bits. -/
theorem linitResult : Obligations.LinitResult := by
  refine ⟨by decide, by decide, fun lm s => ⟨_, exec_linit lm s, mapLanes_frame lm _ s, ?_⟩⟩
  intro k hk
  rw [getLane_mapLanes_mask lm _ s hk]
  split
  · exact ⟨rfl, rfl, rfl, q0_cnPlus_toNat s.cn k, q1_cnPlus s.cn k, rfl, rfl, rfl, rfl⟩
  · rfl

/-- Settles O25: `FFADD` maps `ffaddLane` over the lane groups of the mask, which adds each saved copy word by word and keeps it. -/
theorem ffaddResult : Obligations.FfaddResult := by
  refine ⟨by decide, by decide, fun lm s => ⟨_, exec_ffadd lm s, mapLanes_frame lm _ s, ?_⟩⟩
  intro k hk
  rw [getLane_mapLanes_mask lm _ s hk]
  split
  · exact ⟨rfl, fun i _ => ⟨vword_add_toNat _ _ i, vword_add_toNat _ _ i, vword_add_toNat _ _ i, vword_add_toNat _ _ i⟩⟩
  · rfl

end Sys2Proof.Machine
end

section
/-! PROOFS. `CTRINC` (42_combine_and_counter.md R144): the words of a vector as digits of its 64-bit lanes, so that the carry between
the counter's words is read off one 64-bit sum. -/

namespace Sys2Proof.Machine

/-- The counter lane as a number: word 0 is the low half. -/
theorem q0_toNat (v : V128) : (q0 v).toNat = v.w1.toNat * 2 ^ 32 + v.w0.toNat := by
  rw [q0, BitVec.toNat_append, ← Nat.shiftLeft_add_eq_or_of_lt v.w0.isLt, Nat.shiftLeft_eq]

theorem w0_toNat (v : V128) : v.w0.toNat = (q0 v).toNat % 2 ^ 32 := by
  have := q0_toNat v; omega

theorem w1_toNat (v : V128) : v.w1.toNat = (q0 v).toNat / 2 ^ 32 := by
  have := q0_toNat v; omega

theorem w2_eq_extract_q1 (v : V128) : v.w2 = (q1 v).extractLsb' 0 32 := congrArg V128.w2 (ofQ_q0_q1 v).symm

theorem w3_eq_extract_q1 (v : V128) : v.w3 = (q1 v).extractLsb' 32 32 := congrArg V128.w3 (ofQ_q0_q1 v).symm

/-- The high lane determines the nonce words. -/
theorem nonce_words_eq_of_q1 {v u : V128} (h : q1 v = q1 u) : v.w2 = u.w2 ∧ v.w3 = u.w3 := by
  simp only [w2_eq_extract_q1, w3_eq_extract_q1, h, and_self]

/-- One step of the counter, as a number, is lane 1's counter: the carry out of bit 63 is dropped. -/
theorem q0_add_one_toNat (cn : V128) : (q0 (add64x2 cn one)).toNat = ((q0 cn).toNat + 1) % 2 ^ 64 :=
  q0_cnPlus_toNat cn 1

/-- Word 0 of the counter one on. -/
theorem w0_add_one (cn : V128) : (add64x2 cn one).w0.toNat = (cn.w0.toNat + 1) % 2 ^ 32 := by
  rw [w0_toNat, q0_add_one_toNat, q0_toNat]
  omega

/-- Word 1 of the counter one on: it takes the carry out of word 0. -/
theorem w1_add_one (cn : V128) :
    (add64x2 cn one).w1.toNat = (cn.w1.toNat + (cn.w0.toNat + 1) / 2 ^ 32) % 2 ^ 32 := by
  rw [w1_toNat, q0_add_one_toNat, q0_toNat]
  omega

/-- Settles O28: `CTRINC` adds `ONE` lane by lane; the counter words are the digits of the low lane's sum, and the high lane, which
holds the nonce, gets 0. -/
theorem ctrincResult : Obligations.CtrincResult := by
  refine ⟨by decide, fun s => ⟨_, exec_ctrinc s, rfl, rfl, w0_add_one s.cn, w1_add_one s.cn, ?_⟩⟩
  exact nonce_words_eq_of_q1 (q1_cnPlus s.cn 1)

end Sys2Proof.Machine
end

section
/-! PROOFS. Encoding (30_encoding.md R71 to R82): a micro-operation word is its three fields, and the decoder accepts a word
exactly when the word is the encoding of the operation. -/

namespace Sys2Proof

/-- A micro-operation word is its fields (R73): `uop` above `z` above `lm`. -/
theorem microOpWord_toNat (u : Byte) :
    u.toNat = (uopField u).toNat * 16 + (zField u).toNat * 8 + (lmField u).toNat := by
  have hz : (zField u).toNat = u.toNat / 8 % 2 := by
    simp only [zField, BitVec.getLsbD, Nat.testBit, Nat.one_and_eq_mod_two, Nat.shiftRight_eq_div_pow]
    rcases Nat.mod_two_eq_zero_or_one (u.toNat / 2 ^ 3) with h | h <;> simp at h <;> simp [h]
  have huop : (uopField u).toNat = u.toNat / 16 := by
    simp only [uopField, BitVec.extractLsb'_toNat, Nat.shiftRight_eq_div_pow]
    have := u.isLt
    omega
  have hlm : (lmField u).toNat = u.toNat % 8 := by
    simp [lmField, BitVec.extractLsb'_toNat]
  omega

theorem decodePlain_eq_ok {i j : Instr} {m : BitVec 3} : decodePlain i m = .ok j ↔ m = 0#3 ∧ i = j := by
  unfold decodePlain
  split <;> simp [*]

theorem decodeLane_eq_ok {op : LaneMask → Instr} {j : Instr} {m : BitVec 3} :
    decodeLane op m = .ok j ↔ ∃ lm : LaneMask, m = lm.bits ∧ op lm = j := by
  constructor
  · unfold decodeLane
    intro h
    split at h
    · next hm => exact ⟨.l0, hm, by simpa using h⟩
    · split at h
      · next hm => exact ⟨.l012, hm, by simpa using h⟩
      · simp at h
  · rintro ⟨lm, rfl, rfl⟩
    cases lm <;> rfl

/-- A word with the fields of an operation of format U, `z` being 0, is its encoding. -/
theorem wordU_eq_toNat {u : Byte} {uop : Nat} (hz : zField u = false) (huop : (uopField u).toNat = uop) :
    wordU uop (lmField u) = u.toNat := by
  have h := microOpWord_toNat u
  simp only [hz, Bool.toNat_false] at h
  rw [wordU]
  omega

/-- A legal micro-operation word is the encoding of the operation of format U it decodes to: no bit is ignored (R82). -/
theorem encode_of_decodeU {u : Byte} {i : Instr} (h : decodeU u = .ok i) : i.format = .u ∧ encode i = u.toNat := by
  unfold decodeU at h
  split at h
  · simp at h
  next hz =>
  rw [Bool.not_eq_true] at hz
  have plain : ∀ {uop : Nat} {j : Instr}, (uopField u).toNat = uop → j.format = .u → encode j = wordU uop 0#3 →
      decodePlain j (lmField u) = .ok i → i.format = .u ∧ encode i = u.toNat := by
    intro uop j huop hf he hd
    obtain ⟨hm, rfl⟩ := decodePlain_eq_ok.1 hd
    exact ⟨hf, by rw [he, ← hm, wordU_eq_toNat hz huop]⟩
  have lane : ∀ {uop : Nat} {op : LaneMask → Instr}, (uopField u).toNat = uop → (∀ lm, (op lm).format = .u) →
      (∀ lm, encode (op lm) = wordU uop lm.bits) → decodeLane op (lmField u) = .ok i →
      i.format = .u ∧ encode i = u.toNat := by
    intro uop op huop hf he hd
    obtain ⟨lm, hm, rfl⟩ := decodeLane_eq_ok.1 hd
    exact ⟨hf lm, by rw [he, ← hm, wordU_eq_toNat hz huop]⟩
  split at h
  · next huop => exact plain huop rfl rfl h
  · next huop => exact lane huop (fun _ => rfl) (fun _ => rfl) h
  · next huop => exact lane huop (fun _ => rfl) (fun _ => rfl) h
  · next huop => exact lane huop (fun _ => rfl) (fun _ => rfl) h
  · next huop => exact lane huop (fun _ => rfl) (fun _ => rfl) h
  · next huop => exact lane huop (fun _ => rfl) (fun _ => rfl) h
  · next huop => exact lane huop (fun _ => rfl) (fun _ => rfl) h
  · next huop => exact plain huop rfl rfl h
  · next huop => exact plain huop rfl rfl h
  · simp at h

/-- The word of an operation of format U decodes to it (R82). -/
theorem decodeU_encode {i : Instr} (h : i.format = .u) : decodeU (BitVec.ofNat 8 (encode i)) = .ok i := by
  cases i with
  | gen n => simp [Instr.format] at h
  | ldws | ctrinc | ctrwr => decide
  | linit lm | qr lm | diag lm | undiag lm | ffadd lm | xorst lm => cases lm <;> decide

/-- The word of `GEN n` decodes to it when the port's `BCW` bits hold `n` (R72). -/
theorem decodeCmd_encode_gen {cfg : Config} {n : Nat} (h : n < 2 ^ cfg.bcw) :
    decodeCmd cfg (encode (.gen n)) = .ok (.gen n) := by
  have hcop : (n * 256 + 1) % 256 = 1 := by omega
  have hn : (n * 256 + 1) / 256 = n := by omega
  rw [decodeCmd, encode, if_pos hcop, hn, Nat.mod_eq_of_lt h]

/-- Settles O1: `GEN n` has its count above `0x01`, and each word of format U is one of the legal ones. -/
theorem decodeAfterEncode : Obligations.DecodeAfterEncode := by
  intro cfg i hwf
  cases i with
  | gen n => exact decodeCmd_encode_gen (by simpa [Instr.wellFormed] using hwf)
  | ldws | ctrinc | ctrwr => exact decodeU_encode rfl
  | linit lm | qr lm | diag lm | undiag lm | ffadd lm | xorst lm => exact decodeU_encode rfl

/-- A legal command word of the port's width is the encoding of the `GEN` it decodes to (R72). -/
theorem encode_of_decodeCmd {cfg : Config} {w : Nat} {i : Instr} (hw : w < 2 ^ (cfg.bcw + 8))
    (h : decodeCmd cfg w = .ok i) : i.format = .cmd ∧ i.wellFormed cfg = true ∧ encode i = w := by
  have hlt : w / 256 < 2 ^ cfg.bcw := Nat.div_lt_of_lt_mul (by rwa [pow_add, mul_comm] at hw)
  unfold decodeCmd at h
  split at h
  · next hcop =>
    rw [Nat.mod_eq_of_lt hlt] at h
    cases h
    refine ⟨rfl, decide_eq_true hlt, ?_⟩
    rw [encode]
    omega
  · cases h

theorem wellFormed_of_format_u (cfg : Config) {i : Instr} (h : i.format = .u) : i.wellFormed cfg = true := by
  cases i with
  | gen n => cases h
  | ldws | ctrinc | ctrwr => rfl
  | linit lm | qr lm | diag lm | undiag lm | ffadd lm | xorst lm => rfl

/-- Settles O2: in each format the decoder has looked at every bit of the word. -/
theorem encodeAfterDecode : Obligations.EncodeAfterDecode := by
  intro cfg f w i hw h
  cases f with
  | cmd => exact encode_of_decodeCmd hw h
  | u =>
    obtain ⟨hf, he⟩ := encode_of_decodeU h
    refine ⟨hf, wellFormed_of_format_u cfg hf, ?_⟩
    rw [he, BitVec.toNat_ofNat, Nat.mod_eq_of_lt hw]

/-- Settles O3: the table is finite. -/
theorem microOpWordDecoding : Obligations.MicroOpWordDecoding := by
  unfold Obligations.MicroOpWordDecoding
  decide

/-- Settles O4: the two sides are the same procedure. -/
theorem commandWordDecoding : Obligations.CommandWordDecoding := fun _ _ => rfl

/-- Settles O5: each word is closed. -/
theorem wordsOfTheTables : Obligations.WordsOfTheTables := by
  unfold Obligations.WordsOfTheTables
  decide

end Sys2Proof
end

section
/-! PROOFS. The step (43_sequencer.md R161 to R177): what a running generator fetches, what its micro-operation answers, the
transition of each phase, and the acceptance of `GEN`. -/

namespace Sys2Proof.Machine

/-! What is issued (R165). -/

/-- The sub-steps of phase `ROUND`. -/
theorem sub_cases_of_le_three {b : BitVec 3} (h : b.toNat ≤ 3) : b = 0 ∨ b = 1 ∨ b = 2 ∨ b = 3 := by
  revert b; decide

/-- The sub-steps of phase `EMIT`: feed-forward, combine, and the increments. -/
theorem sub_cases_emit (b : BitVec 3) : b = 0 ∨ b = 1 ∨ 2 ≤ b.toNat := by
  revert b; decide

theorem sub_ne_of_two_le {b : BitVec 3} (h : 2 ≤ b.toNat) : b ≠ 0 ∧ b ≠ 1 := by
  constructor <;> rintro rfl <;> simp at h

theorem emitOp_of_two_le {n : Nat} (h : 2 ≤ n) (lm : LaneMask) : emitOp n lm = .ctrinc := by
  obtain ⟨k, rfl⟩ := Nat.exists_eq_add_of_le' h
  rfl

theorem busy_of_ne_idle {s : State} (hp : s.ph ≠ .idle) : busy s = true := by simpa [busy] using hp

/-- A running generator fetches a micro-operation exactly as the issued word decodes to it. -/
theorem fetch_eq_microOp {s : State} {i : Instr} (hp : s.ph ≠ .idle) (h : fetch s = .microOp i) :
    ∃ u, issuedWord s = some u ∧ decodeU u = .ok i := by
  simp only [fetch, busy_of_ne_idle hp, if_true, fetchMicroOp] at h
  cases hw : issuedWord s with
  | none => simp [hw] at h
  | some u =>
    cases hd : decodeU u with
    | error e => simp [hw, hd] at h
    | ok j =>
      simp only [hw, hd, Fetched.microOp.injEq] at h
      exact ⟨u, rfl, by rw [h] at hd; exact hd⟩

/-- At every running position of R179 a micro-operation is fetched (R165). -/
theorem fetch_running {s : State} (hp : s.ph ≠ .idle) (hr : ReachablePosition s) : ∃ i, fetch s = .microOp i := by
  cases hs : s.ph with
  | idle => exact absurd hs hp
  | load => exact ⟨_, fetch_load hs hr⟩
  | init => exact ⟨_, fetch_init hs hr⟩
  | round => exact ⟨_, fetch_round hs hr⟩
  | emit => exact ⟨_, fetch_emit hs hr⟩
  | writeback => exact ⟨_, fetch_writeback hs hr⟩

/-- The word issued is the encoding of the micro-operation fetched. -/
theorem issuedWord_of_fetch {s : State} {i : Instr} (hp : s.ph ≠ .idle) (h : fetch s = .microOp i) :
    issuedWord s = some (BitVec.ofNat 8 (encode i)) := by
  obtain ⟨u, hu, hd⟩ := fetch_eq_microOp hp h
  rw [hu, (encode_of_decodeU hd).2, BitVec.ofNat_toNat, BitVec.setWidth_eq]

/-- The word of a lane micro-operation with the mask of `REM`. -/
theorem ofNat_encode_maskOf (op : LaneMask → Instr) (rem : Nat) :
    BitVec.ofNat 8 (encode (op (maskOf rem))) =
      if 3 ≤ rem then BitVec.ofNat 8 (encode (op .l012)) else BitVec.ofNat 8 (encode (op .l0)) := by
  unfold maskOf
  split <;> rfl

/-- Settles O7: the word is the encoding of the micro-operation that the phase and the sub-step fetch. -/
theorem issuedWordTable : Obligations.IssuedWordTable := by
  intro s hr
  have word := @issuedWord_of_fetch s
  cases hp : s.ph with
  | idle => simp [issuedWord, hp]
  | load => exact word (by simp [hp]) (fetch_load hp hr)
  | init => exact (word (by simp [hp]) (fetch_init hp hr)).trans (congrArg some (ofNat_encode_maskOf .linit s.rem))
  | writeback => exact word (by simp [hp]) (fetch_writeback hp hr)
  | round =>
    have hw := word (by simp [hp]) (fetch_round hp hr)
    simp only [ReachablePosition, hp] at hr
    obtain ⟨-, -, hsub, -⟩ := hr
    rcases sub_cases_of_le_three hsub with h | h | h | h <;> rw [h] at hw ⊢
    · exact hw.trans (congrArg some (ofNat_encode_maskOf .qr s.rem))
    · exact hw.trans (congrArg some (ofNat_encode_maskOf .diag s.rem))
    · exact hw.trans (congrArg some (ofNat_encode_maskOf .qr s.rem))
    · exact hw.trans (congrArg some (ofNat_encode_maskOf .undiag s.rem))
  | emit =>
    have hw := word (by simp [hp]) (fetch_emit hp hr)
    rcases sub_cases_emit s.sub with h | h | h
    · rw [h] at hw ⊢
      exact hw.trans (congrArg some (ofNat_encode_maskOf .ffadd s.rem))
    · rw [h] at hw ⊢
      exact hw.trans (congrArg some (ofNat_encode_maskOf .xorst s.rem))
    · obtain ⟨h0, h1⟩ := sub_ne_of_two_le h
      rw [emitOp_of_two_le h] at hw
      simp only [if_neg h0, if_neg h1]
      exact hw

/-- Settles O8: the micro-operation fetched is what the word issued at the position decodes to, and a legal word encodes
back. -/
theorem sequencerIssuesLegalWords : Obligations.SequencerIssuesLegalWords := by
  intro s hp hr
  obtain ⟨i, hf⟩ := fetch_running hp hr
  obtain ⟨u, hu, hd⟩ := fetch_eq_microOp hp hf
  obtain ⟨hfmt, he⟩ := encode_of_decodeU hd
  exact ⟨u, i, hu, hd, hfmt, he, hf⟩

/-! The step as what was fetched. -/

theorem step_of_refused {s : State} {i : Instr} {r : Refusal} (hf : fetch s = .microOp i) (he : exec i s = .refused r) :
    step s = .refused r := by
  simp [step, hf, he, andThen]

theorem step_of_unreachable {s : State} (hr : ¬ ReachablePosition s) : step s = .refused .unreachablePosition := by
  have hp : s.ph ≠ .idle := fun hp => hr (by simp [ReachablePosition, hp])
  have hw : issuedWord s = none := by
    rw [issuedWord, if_neg (by rwa [legalPosition_iff])]
  simp [step, fetch, busy_of_ne_idle hp, fetchMicroOp, hw]

theorem step_waits {s : State} (hp : s.ph = .idle) (hport : s.port = none) : step s = .next s := by
  simp [step, fetch_idle hp, fetchCommand, hport]

theorem fetch_command {s : State} {c : Nat} {i : Instr} (hp : s.ph = .idle) (hport : s.port = some c)
    (hd : decodeCmd s.cfg c = .ok i) : fetch s = .command i := by
  simp [fetch_idle hp, fetchCommand, hport, hd]

/-- Settles O6: idle by the command fetched, running by the micro-operation fetched. -/
theorem stepRunsDecodedInstruction : Obligations.StepRunsDecodedInstruction := by
  refine ⟨fun s c i hp hport hd => ?_, fun s t u i hp hu hd he => ?_, fun s u i r hp hu hd he => ?_⟩
  · exact step_of_command (fetch_command hp hport hd)
  · exact step_of_microOp (fetch_of_issued hp hu hd) he
  · exact step_of_refused (fetch_of_issued hp hu hd) he

/-- Settles O9: nothing at the port, a reserved word at the port, no word issued. -/
theorem stepWaitsOrRefusesByName : Obligations.StepWaitsOrRefusesByName := by
  refine fun s => ⟨step_waits, fun c hp hport hc => ?_, step_of_unreachable⟩
  have hd : decodeCmd s.cfg c = .error .cop := if_neg hc
  simp [step, fetch_idle hp, fetchCommand, hport, hd]

/-! The command port does not reach a running generator (R161). -/

/-- The state with other contents of the command port. -/
def withPort (p : Option Nat) (s : State) : State := { s with port := p }

theorem combineLane_withPort (k : Nat) (s : State) (p : Option Nat) :
    combineLane k (withPort p s) = withPort p (combineLane k s) := by
  have hl : getLane (withPort p s) k = getLane s k := by unfold getLane; split <;> rfl
  unfold combineLane
  rw [hl]
  rfl

theorem overLanes_combineLane_withPort (lm : LaneMask) (s : State) (p : Option Nat) :
    overLanes lm combineLane (withPort p s) = withPort p (overLanes lm combineLane s) := by
  cases lm with
  | l0 => exact combineLane_withPort 0 s p
  | l012 => simp only [overLanes_l012, combineLane_withPort]

/-- A micro-operation neither reads nor writes the port. -/
theorem exec_withPort {i : Instr} (hi : i.format = .u) (s : State) (p : Option Nat) :
    exec i (withPort p s) = andThen (exec i s) (fun u => .next (withPort p u)) := by
  cases i with
  | gen n => cases hi
  | ldws =>
    have hinc : incrementHeld (withPort p s) = incrementHeld s := rfl
    simp only [exec, execLdws, hinc]
    split <;> rfl
  | linit lm | qr lm | diag lm | undiag lm | ffadd lm => cases lm <;> rfl
  | xorst lm => exact congrArg Host.Outcome.next (overLanes_combineLane_withPort lm s p)
  | ctrinc | ctrwr => rfl

theorem dispatch_withPort (s : State) (p : Option Nat) : dispatch (withPort p s) = withPort p (dispatch s) := by
  unfold dispatch
  rw [apply_ite (withPort p)]
  rfl

/-- The transition neither reads nor writes the port. -/
theorem advance_withPort (s : State) (p : Option Nat) : advance (withPort p s) = withPort p (advance s) := by
  have hph : (withPort p s).ph = s.ph := rfl
  unfold advance
  rw [hph]
  cases s.ph with
  | idle | init | writeback => rfl
  | load => exact dispatch_withPort s p
  | round =>
    show advanceRound (withPort p s) = withPort p (advanceRound s)
    simp only [advanceRound, apply_ite (withPort p)]
    rfl
  | emit =>
    show advanceEmit (withPort p s) = withPort p (advanceEmit s)
    simp only [advanceEmit, apply_ite (withPort p), ← dispatch_withPort]
    rfl

@[simp] theorem advance_port (s : State) : (advance s).port = s.port :=
  (congrArg State.port (advance_withPort s s.port) :)

/-- The step of a running generator with other contents of the port is the same step but for the port. -/
theorem step_withPort {s : State} (hp : s.ph ≠ .idle) (p : Option Nat) :
    step (withPort p s) = andThen (step s) (fun t => .next (withPort p t)) := by
  by_cases hr : ReachablePosition s
  · obtain ⟨i, hf⟩ := fetch_running hp hr
    obtain ⟨u, hu, hd⟩ := fetch_eq_microOp hp hf
    have hf' : fetch (withPort p s) = .microOp i := fetch_of_issued (s := withPort p s) hp hu hd
    simp only [step, hf, hf', exec_withPort (encode_of_decodeU hd).1]
    cases exec i s with
    | next u => simp only [andThen, advance_withPort]
    | fault r | refused r => rfl
  · rw [step_of_unreachable hr, step_of_unreachable (s := withPort p s) hr]
    rfl

theorem step_port_of_running {s t : State} (hp : s.ph ≠ .idle) (h : step s = .next t) : t.port = s.port := by
  obtain ⟨hi, -⟩ | ⟨-, -, hi, -⟩ | ⟨i, u, -, -, hu, -, he, rfl⟩ := step_cases h
  · exact absurd hi hp
  · exact absurd hi hp
  · rw [advance_port]
    exact congrArg ControlPart.port (exec_controlPart he hu)

/-- Settles O10: the step with the port changed is the step, then the port changed. -/
theorem busyStepIgnoresPort : Obligations.BusyStepIgnoresPort := by
  refine fun s p hp => ⟨fun t h => ⟨step_port_of_running hp h, ?_⟩, fun r h => ?_⟩
  · exact (step_withPort hp p).trans (by rw [h]; rfl)
  · exact (step_withPort hp p).trans (by rw [h]; rfl)

/-! Acceptance (R170) and refusal (R204). -/

theorem acceptGen_eq {n : Nat} {s : State} (hn : n < 2 ^ s.cfg.bcw) :
    acceptGen n s = { s with rem := n, off := 0, done := false, ph := .load, sub := 0 } := by
  simp [acceptGen, setPos, setDone, setOff, setRem, Nat.mod_eq_of_lt hn]

/-- Settles O11: a launch that keeps the contract is accepted, and `BCW` bits hold `n`. -/
theorem genAccepted : Obligations.GenAccepted := by
  intro n s hp hn hk
  exact ⟨execGen_eq_next.2 ⟨hp, hk, (acceptGen_eq hn).symm⟩, rfl⟩

theorem execGen_idle {n : Nat} {s : State} (hp : s.ph = .idle) :
    execGen n s = match launchViolation s n with | some r => .refused r | none => .next (acceptGen n s) := by
  exact if_neg (by simp [busy, hp])

theorem execGen_of_violation {n : Nat} {s : State} {r : Refusal} (hp : s.ph = .idle)
    (hv : launchViolation s n = some r) : execGen n s = .refused r := by
  rw [execGen_idle hp, hv]

theorem execGen_busy (n : Nat) {s : State} (hp : s.ph ≠ .idle) : execGen n s = .refused .commandWhileBusy :=
  if_pos (busy_of_ne_idle hp)

/-- A placement that keeps the contract passes the three checks of the buffers. -/
theorem checks_of_placementOk {p : Placement} {n : Nat} (h : PlacementOk p n) :
    wrongSizes p n = false ∧ partlyOverlapping p = false ∧ forbiddenOverlaps p = false := by
  obtain ⟨hin, hout, hsame, hforb⟩ := h
  refine ⟨by simp [wrongSizes, hin, hout], ?_, ?_⟩
  · rw [partlyOverlapping, Bool.and_eq_false_iff, bne_eq_false_iff_eq, overlaps_eq_false, hin, hout]
    exact hsame.symm
  · simpa only [forbiddenOverlaps, Bool.or_eq_false_iff, overlaps_eq_false, hin, hout, and_assoc] using hforb

theorem launchViolation_of_wrongSizes {s : State} {n : Nat} (h : ¬ (s.place.inSize = 64 * n ∧ s.place.outSize = 64 * n)) :
    launchViolation s n = some .wrongBufferSize := by
  have hs : wrongSizes s.place n = true := by
    simp only [wrongSizes, Bool.or_eq_true, bne_iff_ne]
    tauto
  rw [launchViolation, if_pos hs]

theorem launchViolation_of_wrongIncrement {s : State} {n : Nat} (hp : PlacementOk s.place n) (hi : ¬ IncrementOk s) :
    launchViolation s n = some .wrongIncrement := by
  obtain ⟨h1, h2, h3⟩ := checks_of_placementOk hp
  have hi : incrementHeld s = false := by rwa [← Bool.not_eq_true, incrementHeld_iff]
  simp [launchViolation, h1, h2, h3, hi]

theorem execGen_refused_iff {n : Nat} {s : State} :
    (∃ r, execGen n s = .refused r) ↔ s.ph ≠ .idle ∨ ¬ Contract s n := by
  by_cases hp : s.ph = .idle
  · rw [execGen_idle hp, ← launchViolation_eq_none]
    cases launchViolation s n <;> simp [hp]
  · exact ⟨fun _ => .inl hp, fun _ => ⟨_, execGen_busy n hp⟩⟩

/-- Settles O12: an idle generator answers by the launch check, which looks at the sizes before anything and at `INC` last. -/
theorem genRefusedExactly : Obligations.GenRefusedExactly := by
  refine fun n s => ⟨execGen_refused_iff, execGen_busy n, fun hp hs => ?_, fun hp hpl hi => ?_⟩
  · exact execGen_of_violation hp (launchViolation_of_wrongSizes hs)
  · exact execGen_of_violation hp (launchViolation_of_wrongIncrement hpl hi)

/-! `LDWS` (41_lanes_and_block.md R120). -/

theorem exec_ldws {s : State} (h : IncrementOk s) :
    exec .ldws s = .next { s with
      sigma := bytesVec (memRead s .const 0 16), k0 := bytesVec (memRead s .ws 0 16),
      k1 := bytesVec (memRead s .ws 16 16), cn := bytesVec (memRead s .ws 32 16) } :=
  if_pos ((incrementHeld_iff s).2 h)

/-- Settles O19: `LDWS` compares `INC` before it loads. -/
theorem ldwsRefusesWrongIncrement : Obligations.LdwsRefusesWrongIncrement :=
  fun s h => if_neg (mt (incrementHeld_iff s).1 h)

/-- Four bytes, least significant first, as a number (20_memory.md R45). -/
theorem bytesWord_toNat (bs : List Byte) (o : Nat) :
    (bytesWord bs o).toNat =
      (bs.getD o 0).toNat + 2 ^ 8 * (bs.getD (o + 1) 0).toNat + 2 ^ 16 * (bs.getD (o + 2) 0).toNat +
        2 ^ 24 * (bs.getD (o + 3) 0).toNat := by
  have append_toNat : ∀ {n : Nat} (x : BitVec n) (y : Byte), (x ++ y).toNat = x.toNat * 256 + y.toNat := by
    intro n x y
    rw [BitVec.toNat_append, ← Nat.shiftLeft_add_eq_or_of_lt y.isLt, Nat.shiftLeft_eq]
  simp only [bytesWord, append_toNat]
  omega

theorem vword_bytesVec (bs : List Byte) {i : Nat} (hi : i < 4) : vword (bytesVec bs) i = bytesWord bs (4 * i) := by
  match i, hi with
  | 0, _ | 1, _ | 2, _ | 3, _ => rfl

/-- A word of a vector read from memory is the little-endian number of its four bytes. -/
theorem vword_readBytes_toNat (m : Memory) (a : Nat) {i : Nat} (hi : i < 4) :
    (vword (bytesVec (Memory.readBytes m a 16)) i).toNat =
      (Memory.read m (a + 4 * i)).toNat + 2 ^ 8 * (Memory.read m (a + 4 * i + 1)).toNat +
        2 ^ 16 * (Memory.read m (a + 4 * i + 2)).toNat + 2 ^ 24 * (Memory.read m (a + 4 * i + 3)).toNat := by
  rw [vword_bytesVec _ hi, bytesWord_toNat]
  simp only [Memory.readBytes_getD m a 16 _ (show 4 * i + 3 < 16 by omega),
    Memory.readBytes_getD m a 16 _ (show 4 * i + 2 < 16 by omega),
    Memory.readBytes_getD m a 16 _ (show 4 * i + 1 < 16 by omega),
    Memory.readBytes_getD m a 16 _ (show 4 * i < 16 by omega), ← Nat.add_assoc]

/-- Settles O18: each vector is read from its own sixteen bytes. -/
theorem ldwsLoads : Obligations.LdwsLoads := by
  refine fun s h => ⟨_, exec_ldws h, rfl, fun i hi v a hv => ?_⟩
  rcases hv with ⟨rfl, rfl⟩ | ⟨rfl, rfl⟩ | ⟨rfl, rfl⟩ | ⟨rfl, rfl⟩ <;> exact vword_readBytes_toNat s.mem _ hi

/-! Each micro-operation answers a next state (60_exceptions.md R200, R216). -/

theorem exec_answers_next {i : Instr} (hi : i.format = .u) (hl : i ≠ .ldws) (s : State) : ∃ u, exec i s = .next u := by
  cases i with
  | gen n => cases hi
  | ldws => exact absurd rfl hl
  | linit lm | qr lm | diag lm | undiag lm | ffadd lm | xorst lm => exact ⟨_, rfl⟩
  | ctrinc | ctrwr => exact ⟨_, rfl⟩

/-- Settles O49: `LDWS` is the only micro-operation that looks at `INC`. -/
theorem runningStepAnswersNext : Obligations.RunningStepAnswersNext := by
  intro s hp hr hinc
  obtain ⟨i, hf⟩ := fetch_running hp hr
  obtain ⟨_, _, hd⟩ := fetch_eq_microOp hp hf
  have he : ∃ u, exec i s = .next u := by
    by_cases hl : i = .ldws
    · exact ⟨_, hl ▸ exec_ldws hinc⟩
    · exact exec_answers_next (encode_of_decodeU hd).1 hl s
  obtain ⟨u, he⟩ := he
  exact ⟨_, step_of_microOp hf he⟩

/-! The transition of each phase (R172 to R177). -/

theorem step_load {s u : State} (hp : s.ph = .load) (hr : ReachablePosition s) (he : exec .ldws s = .next u) :
    step s = .next (dispatch u) := by
  have hu : u.ph = .load := (congrArg ControlPart.ph (exec_controlPart he rfl)).trans hp
  rw [step_of_microOp (fetch_load hp hr) he, advance, hu]

theorem step_init {s u : State} (hp : s.ph = .init) (hr : ReachablePosition s)
    (he : exec (.linit (maskOf s.rem)) s = .next u) : step s = .next (setPos u .round 10 0) := by
  have hu : u.ph = .init := (congrArg ControlPart.ph (exec_controlPart he rfl)).trans hp
  rw [step_of_microOp (fetch_init hp hr) he, advance, hu]

theorem roundOp_format (n : Nat) (lm : LaneMask) : (roundOp n lm).format = .u := by
  match n with
  | 0 | 1 | 2 | _ + 3 => rfl

theorem roundOp_ne_ldws (n : Nat) (lm : LaneMask) : roundOp n lm ≠ .ldws := by
  match n with
  | 0 | 1 | 2 | _ + 3 => exact Instr.noConfusion

theorem emitOp_format (n : Nat) (lm : LaneMask) : (emitOp n lm).format = .u := by
  match n with
  | 0 | 1 | _ + 2 => rfl

theorem emitOp_ne_ldws (n : Nat) (lm : LaneMask) : emitOp n lm ≠ .ldws := by
  match n with
  | 0 | 1 | _ + 2 => exact Instr.noConfusion

theorem step_round {s u : State} (hp : s.ph = .round) (hr : ReachablePosition s)
    (he : exec (roundOp s.sub.toNat (maskOf s.rem)) s = .next u) : step s = .next (advanceRound u) := by
  have hu : u.ph = .round := (congrArg ControlPart.ph (exec_controlPart he (roundOp_format _ _))).trans hp
  rw [step_of_microOp (fetch_round hp hr) he, advance, hu]

theorem step_emit {s u : State} (hp : s.ph = .emit) (hr : ReachablePosition s)
    (he : exec (emitOp s.sub.toNat (maskOf s.rem)) s = .next u) : step s = .next (advanceEmit u) := by
  have hu : u.ph = .emit := (congrArg ControlPart.ph (exec_controlPart he (emitOp_format _ _))).trans hp
  rw [step_of_microOp (fetch_emit hp hr) he, advance, hu]

theorem step_writeback {s : State} (hp : s.ph = .writeback) (hr : ReachablePosition s) :
    step s = .next (complete (memWrite s .ws 32 (vecBytes s.cn))) := by
  rw [step_of_microOp (fetch_writeback hp hr) (exec_ctrwr s), advance, memWrite_ph, hp]

/-- Settles O13: `LDWS` keeps `REM`, on which the dispatch turns. -/
theorem loadTransition : Obligations.LoadTransition := by
  intro s u hp hs he
  have hrem : u.rem = s.rem := congrArg ControlPart.rem (exec_controlPart he rfl)
  rw [step_load hp (by simpa [ReachablePosition, hp] using hs) he, ← hrem]
  unfold dispatch
  split <;> rfl

/-- Settles O14: `LINIT` answers in every state, and the transition of `INIT` follows. -/
theorem initTransition : Obligations.InitTransition := by
  intro s hp hs hrem
  have hr : ReachablePosition s := by simpa [ReachablePosition, hp] using ⟨hs, hrem⟩
  exact ⟨_, exec_linit (maskOf s.rem) s, step_init hp hr (exec_linit _ s)⟩

theorem advanceRound_eq (s : State) :
    advanceRound s =
      if s.sub.toNat < 3 then setPos s .round s.rc (s.sub + 1)
      else if s.rc = 1 then setPos s .emit 0 0 else setPos s .round (s.rc - 1) 0 := by
  have hrc : s.rc - 1 = 0 ↔ s.rc = 1 := sub_eq_zero
  unfold advanceRound
  simp only [hrc]
  split
  · rfl
  · split
    · next h => rw [h]; rfl
    · rfl

/-- The operation of a sub-step of `ROUND` as the statement writes it. -/
theorem roundOp_eq {b : BitVec 3} (h : b.toNat ≤ 3) (lm : LaneMask) :
    roundOp b.toNat lm = if b = 0 ∨ b = 2 then .qr lm else if b = 1 then .diag lm else .undiag lm := by
  rcases sub_cases_of_le_three h with rfl | rfl | rfl | rfl <;> rfl

/-- Settles O15: the operation of the sub-step, then R174. -/
theorem roundTransition : Obligations.RoundTransition := by
  rintro s lm hp h1 h10 hsub hrem rfl
  have hr : ReachablePosition s := by simpa [ReachablePosition, hp] using ⟨h1, h10, hsub, hrem⟩
  obtain ⟨u, he⟩ := exec_answers_next (roundOp_format s.sub.toNat (maskOf s.rem)) (roundOp_ne_ldws _ _) s
  obtain ⟨-, -, -, -, -, hph, hrc, hsu, -⟩ := controlPart_fields (exec_controlPart he (roundOp_format _ _))
  refine ⟨u, by rw [← roundOp_eq hsub]; exact he, ?_⟩
  rw [step_round hp hr he, advanceRound_eq, hrc, hsu]
  split
  · rw [← hrc, ← hph.trans hp]; rfl
  · split
    · rfl
    · rw [← hph.trans hp]; rfl

/-- The operation of a sub-step of `EMIT` as the statement writes it. -/
theorem emitOp_eq (b : BitVec 3) (lm : LaneMask) :
    emitOp b.toNat lm = if b = 0 then .ffadd lm else if b = 1 then .xorst lm else .ctrinc := by
  rcases sub_cases_emit b with rfl | rfl | h
  · rfl
  · rfl
  · obtain ⟨h0, h1⟩ := sub_ne_of_two_le h
    rw [emitOp_of_two_le h, if_neg h0, if_neg h1]

/-- Counting a group when the registers' widths hold the new values (R176). -/
theorem dispatch_countGroup {s : State} (hrem : s.rem < 2 ^ s.cfg.bcw)
    (hoff : s.off + 64 * groupSize s.rem < 2 ^ (s.cfg.bcw + 6)) :
    dispatch (countGroup s) = { s with
      off := s.off + 64 * groupSize s.rem, rem := s.rem - groupSize s.rem,
      ph := if 1 ≤ s.rem - groupSize s.rem then .init else .writeback, sub := 0 } := by
  have hr : (s.rem - groupSize s.rem) % 2 ^ s.cfg.bcw = s.rem - groupSize s.rem :=
    Nat.mod_eq_of_lt (by omega)
  have hc : countGroup s = { s with off := s.off + 64 * groupSize s.rem, rem := s.rem - groupSize s.rem } := by
    simp [countGroup, setRem, setOff, hr, Nat.mod_eq_of_lt hoff]
  rw [hc, dispatch]
  split <;> rfl

/-- The transition of phase `EMIT` when the registers' widths hold the new values (R175, R176). -/
theorem advanceEmit_eq {s : State} (hp : s.ph = .emit) (hrem : s.rem < 2 ^ s.cfg.bcw)
    (hoff : s.off + 64 * groupSize s.rem < 2 ^ (s.cfg.bcw + 6)) :
    advanceEmit s =
      if s.sub.toNat < groupSize s.rem + 1 then { s with sub := s.sub + 1 }
      else { s with
        off := s.off + 64 * groupSize s.rem, rem := s.rem - groupSize s.rem,
        ph := if 1 ≤ s.rem - groupSize s.rem then .init else .writeback, sub := 0 } := by
  unfold advanceEmit
  split
  · rw [← hp]; rfl
  · exact dispatch_countGroup hrem hoff

/-- The reachable sub-steps of `EMIT` are those up to the last increment of the group. -/
theorem emit_sub_le_iff (s : State) :
    (s.sub.toNat ≤ 4 ∧ (s.rem ≤ 2 → s.sub.toNat ≤ 2)) ↔ s.sub.toNat ≤ groupSize s.rem + 1 := by
  unfold groupSize
  split <;> omega

/-- Settles O16: the operation of the sub-step, then R175 or R176. -/
theorem emitTransition : Obligations.EmitTransition := by
  rintro s p lm hp hrc hrem hwidth rfl rfl hsub hoff
  have hle := (emit_sub_le_iff s).2 hsub
  have hr : ReachablePosition s := by simpa [ReachablePosition, hp] using ⟨hrc, hle.1, hle.2, hrem⟩
  obtain ⟨u, he⟩ := exec_answers_next (emitOp_format s.sub.toNat (maskOf s.rem)) (emitOp_ne_ldws _ _) s
  obtain ⟨hcfg, -, -, hre, hof, hph, -, hsu, -⟩ := controlPart_fields (exec_controlPart he (emitOp_format _ _))
  refine ⟨u, by rw [emitOp_eq] at he; exact he, ?_⟩
  have hnext := advanceEmit_eq (s := u) (hph.trans hp) (by rwa [hre, hcfg]) (by rw [hre, hof, hcfg]; exact hoff)
  rw [step_emit hp hr he, hnext, hsu, hre, hof]
  rfl

/-- Settles O17: `CTRWR`, then R177. -/
theorem writebackCompletes : Obligations.WritebackCompletes := by
  intro s hp hs
  have hr : ReachablePosition s := by simpa [ReachablePosition, hp] using hs
  exact ⟨_, _, exec_ctrwr s, step_writeback hp hr, complete_ph _, complete_done _, by simp [busy], complete_mem _,
    complete_cfg _, complete_place _, complete_port _, complete_sigma _⟩

end Sys2Proof.Machine
end

section
/-! PROOFS. Byte images (20_memory.md R45) and the operations that store, `XORST` and `CTRWR` (42_combine_and_counter.md R140,
R147): the byte at each address after the store. -/

namespace Sys2Proof.Machine

/-! Byte images. -/

theorem extract_bytesWord (bs : List Byte) (o : Nat) {m : Nat} (hm : m < 4) :
    (bytesWord bs o).extractLsb' (8 * m) 8 = bs.getD (o + m) 0 := by
  apply BitVec.eq_of_toNat_eq
  rw [BitVec.extractLsb'_toNat, bytesWord_toNat, Nat.shiftRight_eq_div_pow]
  have h0 := (bs.getD o 0).isLt
  have h1 := (bs.getD (o + 1) 0).isLt
  have h2 := (bs.getD (o + 2) 0).isLt
  have h3 := (bs.getD (o + 3) 0).isLt
  match m, hm with
  | 0, _ | 1, _ | 2, _ | 3, _ => simp only [Nat.mul_zero, Nat.add_zero, Nat.reduceMul, Nat.reducePow] at *; omega

/-- Byte `4i + m` of the image of a vector is byte `m` of its word `i`, least significant first. -/
theorem vecBytes_getD (v : V128) {i m : Nat} (hi : i < 4) (hm : m < 4) :
    (vecBytes v).getD (4 * i + m) 0 = (vword v i).extractLsb' (8 * m) 8 := by
  match i, hi, m, hm with
  | 0, _, 0, _ | 0, _, 1, _ | 0, _, 2, _ | 0, _, 3, _ => rfl
  | 1, _, 0, _ | 1, _, 1, _ | 1, _, 2, _ | 1, _, 3, _ => rfl
  | 2, _, 0, _ | 2, _, 1, _ | 2, _, 2, _ | 2, _, 3, _ => rfl
  | 3, _, 0, _ | 3, _, 1, _ | 3, _, 2, _ | 3, _, 3, _ => rfl

theorem vecBytes_bytesVec_getD (bs : List Byte) {j : Nat} (hj : j < 16) :
    (vecBytes (bytesVec bs)).getD j 0 = bs.getD j 0 := by
  have hsplit : 4 * (j / 4) + j % 4 = j := Nat.div_add_mod j 4
  rw [← hsplit, vecBytes_getD _ (by omega) (by omega), vword_bytesVec _ (by omega), extract_bytesWord _ _ (by omega)]

theorem vecBytes_bytesVec {bs : List Byte} (h : bs.length = 16) : vecBytes (bytesVec bs) = bs := by
  apply List.ext_getElem (by rw [vecBytes_length, h])
  intro j hj hj'
  have hb := vecBytes_bytesVec_getD bs (h ▸ hj')
  rwa [List.getD_eq_getElem _ _ hj, List.getD_eq_getElem _ _ hj'] at hb

theorem bytesVec_vecBytes (v : V128) : bytesVec (vecBytes v) = v := by
  apply vec_eq_of_words
  intro i hi
  apply BitVec.eq_of_toNat_eq
  have hbyte : ∀ m, m < 4 → ((vecBytes v).getD (4 * i + m) 0).toNat = (vword v i).toNat / 2 ^ (8 * m) % 2 ^ 8 := by
    intro m hm
    rw [vecBytes_getD v hi hm, BitVec.extractLsb'_toNat, Nat.shiftRight_eq_div_pow]
  rw [vword_bytesVec _ hi, bytesWord_toNat, hbyte 1 (by omega), hbyte 2 (by omega), hbyte 3 (by omega),
    show (vecBytes v).getD (4 * i) 0 = (vecBytes v).getD (4 * i + 0) 0 from rfl, hbyte 0 (by omega)]
  have := (vword v i).isLt
  omega

theorem q1_toNat (v : V128) : (q1 v).toNat = v.w3.toNat * 2 ^ 32 + v.w2.toNat :=
  q0_toNat { w0 := v.w2, w1 := v.w3, w2 := v.w2, w3 := v.w3 }

/-- Settles O36: a word is the little-endian number of its four bytes, and a 64-bit lane that of its two words. -/
theorem byteImageRoundTrip : Obligations.ByteImageRoundTrip := by
  refine ⟨bytesVec_vecBytes, fun _ => vecBytes_bytesVec, fun v => ⟨?_, ?_⟩⟩
  · rw [q0_toNat]; omega
  · rw [q1_toNat]; omega

/-! `CTRWR`. -/

/-- Settles O29: `CTRWR` stores the image of `CN`, whose bytes are those of its words. -/
theorem ctrwrStores : Obligations.CtrwrStores := by
  refine ⟨by decide, fun s => ⟨_, exec_ctrwr s, rfl, fun a ha => ?_, fun i m hi hm => ?_⟩⟩
  · rw [memWrite_mem, Memory.read_writeBytes, if_neg (by rw [vecBytes_length]; omega)]
  · rw [memWrite_mem, Memory.read_writeBytes, if_pos (by rw [vecBytes_length]; omega), ← vecBytes_getD _ hi hm]
    congr 1
    omega

/-! `XORST`: memory apart, every field is as it was. -/

@[simp] theorem overLanes_combineLane_cfg (lm : LaneMask) (s : State) : (overLanes lm combineLane s).cfg = s.cfg := by
  rw [overLanes_combineLane_frame]
@[simp] theorem overLanes_combineLane_place (lm : LaneMask) (s : State) : (overLanes lm combineLane s).place = s.place := by
  rw [overLanes_combineLane_frame]
@[simp] theorem overLanes_combineLane_port (lm : LaneMask) (s : State) : (overLanes lm combineLane s).port = s.port := by
  rw [overLanes_combineLane_frame]
@[simp] theorem overLanes_combineLane_sigma (lm : LaneMask) (s : State) : (overLanes lm combineLane s).sigma = s.sigma := by
  rw [overLanes_combineLane_frame]
@[simp] theorem overLanes_combineLane_k0 (lm : LaneMask) (s : State) : (overLanes lm combineLane s).k0 = s.k0 := by
  rw [overLanes_combineLane_frame]
@[simp] theorem overLanes_combineLane_k1 (lm : LaneMask) (s : State) : (overLanes lm combineLane s).k1 = s.k1 := by
  rw [overLanes_combineLane_frame]
@[simp] theorem overLanes_combineLane_cn (lm : LaneMask) (s : State) : (overLanes lm combineLane s).cn = s.cn := by
  rw [overLanes_combineLane_frame]
@[simp] theorem overLanes_combineLane_lane0 (lm : LaneMask) (s : State) : (overLanes lm combineLane s).lane0 = s.lane0 := by
  rw [overLanes_combineLane_frame]
@[simp] theorem overLanes_combineLane_lane1 (lm : LaneMask) (s : State) : (overLanes lm combineLane s).lane1 = s.lane1 := by
  rw [overLanes_combineLane_frame]
@[simp] theorem overLanes_combineLane_lane2 (lm : LaneMask) (s : State) : (overLanes lm combineLane s).lane2 = s.lane2 := by
  rw [overLanes_combineLane_frame]
@[simp] theorem overLanes_combineLane_rem (lm : LaneMask) (s : State) : (overLanes lm combineLane s).rem = s.rem := by
  rw [overLanes_combineLane_frame]
@[simp] theorem overLanes_combineLane_off (lm : LaneMask) (s : State) : (overLanes lm combineLane s).off = s.off := by
  rw [overLanes_combineLane_frame]
@[simp] theorem overLanes_combineLane_ph (lm : LaneMask) (s : State) : (overLanes lm combineLane s).ph = s.ph := by
  rw [overLanes_combineLane_frame]
@[simp] theorem overLanes_combineLane_rc (lm : LaneMask) (s : State) : (overLanes lm combineLane s).rc = s.rc := by
  rw [overLanes_combineLane_frame]
@[simp] theorem overLanes_combineLane_sub (lm : LaneMask) (s : State) : (overLanes lm combineLane s).sub = s.sub := by
  rw [overLanes_combineLane_frame]
@[simp] theorem overLanes_combineLane_done (lm : LaneMask) (s : State) : (overLanes lm combineLane s).done = s.done := by
  rw [overLanes_combineLane_frame]
@[simp] theorem overLanes_combineLane_freeIx (lm : LaneMask) (s : State) :
    (overLanes lm combineLane s).freeIx = s.freeIx := by
  rw [overLanes_combineLane_frame]

/-! `XORST`: the bytes it stores. -/

/-- Vector `v` of a lane group in key-vector order. -/
def laneVec (l : Lane) (v : Nat) : V128 := if v = 0 then l.a else if v = 1 then l.b else if v = 2 then l.c else l.d

/-- Byte `16v + j` of the serialised lane group is byte `j` of its vector `v` (41_lanes_and_block.md R126). -/
theorem serLane_getD (l : Lane) {v j : Nat} (hv : v < 4) (hj : j < 16) :
    (serLane l).getD (16 * v + j) 0 = (vecBytes (laneVec l v)).getD j 0 := by
  match v, hv with
  | 0, _ =>
    rw [serLane, List.getD_append _ _ _ _ (by simp; omega), List.getD_append _ _ _ _ (by simp; omega),
      List.getD_append _ _ _ _ (by simp; omega)]
    exact congrArg (fun n => (vecBytes l.a).getD n 0) (Nat.zero_add j)
  | 1, _ =>
    rw [serLane, List.getD_append _ _ _ _ (by simp; omega), List.getD_append _ _ _ _ (by simp; omega),
      List.getD_append_right _ _ _ _ (by simp)]
    exact congrArg (fun n => (vecBytes l.b).getD n 0) (Nat.add_sub_cancel_left 16 j)
  | 2, _ =>
    rw [serLane, List.getD_append _ _ _ _ (by simp; omega), List.getD_append_right _ _ _ _ (by simp)]
    exact congrArg (fun n => (vecBytes l.c).getD n 0) (Nat.add_sub_cancel_left 32 j)
  | 3, _ =>
    rw [serLane, List.getD_append_right _ _ _ _ (by simp)]
    exact congrArg (fun n => (vecBytes l.d).getD n 0) (Nat.add_sub_cancel_left 48 j)

/-- Combining one slice leaves every byte outside it. -/
theorem read_combineLane_other {s : State} {k a : Nat}
    (ha : ¬ (s.place.outBase + s.off + 64 * k ≤ a ∧ a < s.place.outBase + s.off + 64 * k + 64)) :
    Memory.read (combineLane k s).mem a = Memory.read s.mem a := by
  rw [read_combineLane, sliceOff, if_neg (by omega)]

/-- A byte of the slice just combined. -/
theorem read_combineLane_slice (k : Nat) (s : State) {j : Nat} (hj : j < 64) :
    Memory.read (combineLane k s).mem (s.place.outBase + s.off + 64 * k + j) =
      Memory.read s.mem (s.place.inBase + s.off + 64 * k + j) ^^^ (serLane (getLane s k)).getD j 0 := by
  have hsrc : s.place.inBase + (s.place.outBase + s.off + 64 * k + j - s.place.outBase) =
      s.place.inBase + s.off + 64 * k + j := by omega
  have hidx : s.place.outBase + s.off + 64 * k + j - (s.place.outBase + (s.off + 64 * k)) = j := by omega
  rw [read_combineLane, sliceOff, if_pos (by omega), hsrc, hidx]

/-- `XORST` leaves what stands outside its slices of `OUT`. -/
theorem read_overLanes_combineLane_other (lm : LaneMask) (s : State) {a : Nat}
    (ha : ¬ (s.place.outBase + s.off ≤ a ∧ a < s.place.outBase + s.off + 64 * laneCount lm)) :
    Memory.read (overLanes lm combineLane s).mem a = Memory.read s.mem a := by
  cases lm with
  | l0 =>
    simp only [laneCount] at ha
    exact read_combineLane_other (by omega)
  | l012 =>
    simp only [laneCount] at ha
    rw [overLanes_l012, read_combineLane_other (by simp; omega), read_combineLane_other (by simp; omega),
      read_combineLane_other (by omega)]

/-- Settles O26: each lane group of the mask stores in its own slice, and the slices are consecutive. -/
theorem xorstFrame : Obligations.XorstFrame := by
  refine fun lm s => ⟨_, exec_xorst lm s, overLanes_combineLane_frame lm s, fun a ha => ?_⟩
  apply read_overLanes_combineLane_other
  simpa [spaceBase, sliceOff, Nat.add_assoc] using ha

/-- The slices of `IN` are read as they were: they are those of `OUT`, each read before it is written, or share no byte with
them. -/
theorem read_overLanes_combineLane_slice {lm : LaneMask} {s : State}
    (h : s.place.inBase = s.place.outBase ∨
      DisjointRanges (s.place.inBase + s.off) (64 * laneCount lm) (s.place.outBase + s.off) (64 * laneCount lm))
    {k j : Nat} (hk : k < laneCount lm) (hj : j < 64) :
    Memory.read (overLanes lm combineLane s).mem (s.place.outBase + s.off + 64 * k + j) =
      Memory.read s.mem (s.place.inBase + s.off + 64 * k + j) ^^^ (serLane (getLane s k)).getD j 0 := by
  cases lm with
  | l0 =>
    obtain rfl : k = 0 := Nat.lt_one_iff.1 hk
    exact read_combineLane_slice 0 s hj
  | l012 =>
    simp only [laneCount] at h hk
    rw [overLanes_l012]
    match k, hk with
    | 0, _ =>
      rw [read_combineLane_other (by simp; omega), read_combineLane_other (by simp; omega)]
      exact read_combineLane_slice 0 s hj
    | 1, _ =>
      have hslice := read_combineLane_slice 1 (combineLane 0 s) hj
      rw [read_combineLane_other (s := s) (by simp; omega)] at hslice
      rw [read_combineLane_other (by simp; omega)]
      simpa using hslice
    | 2, _ =>
      have hslice := read_combineLane_slice 2 (combineLane 1 (combineLane 0 s)) hj
      rw [read_combineLane_other (s := combineLane 0 s) (by simp; omega),
        read_combineLane_other (s := s) (by simp; omega)] at hslice
      simpa using hslice

/-- Settles O27: a byte of the slices is input xor serialised lane group, and that one a byte of a word of a vector. -/
theorem xorstCombines : Obligations.XorstCombines := by
  refine fun lm s h => ⟨_, exec_xorst lm s, fun k v i m hk hv hi hm => ?_⟩
  have hb := read_overLanes_combineLane_slice h hk (show 16 * v + (4 * i + m) < 64 by omega)
  rw [serLane_getD _ hv (by omega), vecBytes_getD _ hi hm] at hb
  simp only [← Nat.add_assoc] at hb
  exact hb

end Sys2Proof.Machine
end

section
/-! PROOFS. One running step, said once: what it leaves in each phase (43_sequencer.md R172 to R177). Every invariant of a run is
a case analysis of it. -/

namespace Sys2Proof.Machine

/-- The dispatch leads to `INIT` or to `WRITEBACK` (R171). -/
theorem dispatch_ph_cases (s : State) : (dispatch s).ph = .init ∨ (dispatch s).ph = .writeback := by
  rw [dispatch_ph]
  split <;> simp

@[simp] theorem dispatch_ph_ne_idle (s : State) : (dispatch s).ph ≠ .idle := by
  rcases dispatch_ph_cases s with h | h <;> simp [h]

@[simp] theorem dispatch_ph_ne_load (s : State) : (dispatch s).ph ≠ .load := by
  rcases dispatch_ph_cases s with h | h <;> simp [h]

@[simp] theorem dispatch_ph_ne_round (s : State) : (dispatch s).ph ≠ .round := by
  rcases dispatch_ph_cases s with h | h <;> simp [h]

@[simp] theorem dispatch_ph_ne_emit (s : State) : (dispatch s).ph ≠ .emit := by
  rcases dispatch_ph_cases s with h | h <;> simp [h]

theorem dispatch_rem_of_writeback {s : State} (h : (dispatch s).ph = .writeback) : (dispatch s).rem = 0 := by
  rw [dispatch_ph] at h
  rw [dispatch_rem]
  split at h
  · cases h
  · omega

/-- What one sub-step of phase `ROUND` does to a lane group (R174). -/
def roundLane (sub : Nat) : Lane → Lane :=
  match sub with
  | 0 => qrLane
  | 1 => diagLane
  | 2 => qrLane
  | _ => undiagLane

theorem exec_roundOp (n : Nat) (lm : LaneMask) (s : State) :
    exec (roundOp n lm) s = .next (mapLanes lm (fun _ l => roundLane n l) s) := by
  match n with
  | 0 | 1 | 2 | _ + 3 => rfl

/-- The state after `LDWS` (41_lanes_and_block.md R120). -/
def loadVectors (s : State) : State :=
  { s with
    sigma := bytesVec (memRead s .const 0 16), k0 := bytesVec (memRead s .ws 0 16),
    k1 := bytesVec (memRead s .ws 16 16), cn := bytesVec (memRead s .ws 32 16) }

/-- The state after `LINIT` (41_lanes_and_block.md R122). -/
def initLanes (s : State) : State :=
  mapLanes (maskOf s.rem) (fun k _ => initLane s.sigma s.k0 s.k1 (cnPlus s.cn k)) s

/-- The state after `CTRINC` (42_combine_and_counter.md R144). -/
def incrementCn (s : State) : State := { s with cn := add64x2 s.cn one }

@[simp] theorem incrementCn_cfg (s : State) : (incrementCn s).cfg = s.cfg := rfl
@[simp] theorem incrementCn_place (s : State) : (incrementCn s).place = s.place := rfl
@[simp] theorem incrementCn_mem (s : State) : (incrementCn s).mem = s.mem := rfl
@[simp] theorem incrementCn_port (s : State) : (incrementCn s).port = s.port := rfl
@[simp] theorem incrementCn_sigma (s : State) : (incrementCn s).sigma = s.sigma := rfl
@[simp] theorem incrementCn_k0 (s : State) : (incrementCn s).k0 = s.k0 := rfl
@[simp] theorem incrementCn_k1 (s : State) : (incrementCn s).k1 = s.k1 := rfl
@[simp] theorem incrementCn_lane0 (s : State) : (incrementCn s).lane0 = s.lane0 := rfl
@[simp] theorem incrementCn_lane1 (s : State) : (incrementCn s).lane1 = s.lane1 := rfl
@[simp] theorem incrementCn_lane2 (s : State) : (incrementCn s).lane2 = s.lane2 := rfl
@[simp] theorem incrementCn_rem (s : State) : (incrementCn s).rem = s.rem := rfl
@[simp] theorem incrementCn_off (s : State) : (incrementCn s).off = s.off := rfl
@[simp] theorem incrementCn_ph (s : State) : (incrementCn s).ph = s.ph := rfl
@[simp] theorem incrementCn_rc (s : State) : (incrementCn s).rc = s.rc := rfl
@[simp] theorem incrementCn_sub (s : State) : (incrementCn s).sub = s.sub := rfl
@[simp] theorem incrementCn_done (s : State) : (incrementCn s).done = s.done := rfl
@[simp] theorem incrementCn_freeIx (s : State) : (incrementCn s).freeIx = s.freeIx := rfl
@[simp] theorem incrementCn_cn (s : State) : (incrementCn s).cn = counterVec s.cn 1 := add64x2_one s.cn

theorem exec_ctrinc_eq (s : State) : exec .ctrinc s = .next (incrementCn s) := rfl

/-- What a running step leaves, by the phase and the sub-step it starts in. -/
inductive RunningStep (s : State) : State → Prop
  | load (hp : s.ph = .load) (hsub : s.sub = 0) (hinc : IncrementOk s) : RunningStep s (dispatch (loadVectors s))
  | init (hp : s.ph = .init) (hsub : s.sub = 0) (hrem : 1 ≤ s.rem) : RunningStep s (setPos (initLanes s) .round 10 0)
  | round (hp : s.ph = .round) (h1 : 1 ≤ s.rc.toNat) (h10 : s.rc.toNat ≤ 10) (hsub : s.sub.toNat ≤ 3)
      (hrem : 1 ≤ s.rem) :
      RunningStep s (advanceRound (mapLanes (maskOf s.rem) (fun _ l => roundLane s.sub.toNat l) s))
  | feedForward (hp : s.ph = .emit) (hrc : s.rc = 0) (hrem : 1 ≤ s.rem) (hsub : s.sub = 0) :
      RunningStep s (setPos (mapLanes (maskOf s.rem) (fun _ l => ffaddLane l) s) .emit 0 1)
  | combine (hp : s.ph = .emit) (hrc : s.rc = 0) (hrem : 1 ≤ s.rem) (hsub : s.sub = 1) :
      RunningStep s (setPos (overLanes (maskOf s.rem) combineLane s) .emit 0 2)
  | increment (hp : s.ph = .emit) (hrc : s.rc = 0) (hrem : 1 ≤ s.rem) (h2 : 2 ≤ s.sub.toNat)
      (hsub : s.sub.toNat < groupSize s.rem + 1) : RunningStep s (setPos (incrementCn s) .emit 0 (s.sub + 1))
  | count (hp : s.ph = .emit) (hrc : s.rc = 0) (hrem : 1 ≤ s.rem) (hsub : s.sub.toNat = groupSize s.rem + 1) :
      RunningStep s (dispatch (countGroup (incrementCn s)))
  | writeback (hp : s.ph = .writeback) (hsub : s.sub = 0) :
      RunningStep s (complete (memWrite s .ws 32 (vecBytes s.cn)))

theorem two_le_groupSize_add_one (rem : Nat) : 2 ≤ groupSize rem + 1 := Nat.succ_le_succ (groupSize_pos rem)

theorem groupSize_le_three (rem : Nat) : groupSize rem ≤ 3 := by unfold groupSize; split <;> omega

theorem reachable_emit_iff {s : State} (hp : s.ph = .emit) :
    ReachablePosition s ↔ s.rc = 0 ∧ s.sub.toNat ≤ groupSize s.rem + 1 ∧ 1 ≤ s.rem := by
  simp only [ReachablePosition, hp, ← emit_sub_le_iff, and_assoc]

theorem advanceEmit_lt {s : State} (h : s.sub.toNat < groupSize s.rem + 1) :
    advanceEmit s = setPos s .emit s.rc (s.sub + 1) := if_pos h

theorem step_feedForward {s : State} (hp : s.ph = .emit) (hr : ReachablePosition s) (hrc : s.rc = 0) (hsub : s.sub = 0) :
    step s = .next (setPos (mapLanes (maskOf s.rem) (fun _ l => ffaddLane l) s) .emit 0 1) := by
  have he : exec (emitOp s.sub.toNat (maskOf s.rem)) s = .next (mapLanes (maskOf s.rem) (fun _ l => ffaddLane l) s) := by
    rw [hsub]
    rfl
  rw [step_emit hp hr he, advanceEmit_lt (by simp [hsub]), mapLanes_sub, mapLanes_rc, hsub, hrc]
  rfl

theorem step_combine {s : State} (hp : s.ph = .emit) (hr : ReachablePosition s) (hrc : s.rc = 0) (hsub : s.sub = 1) :
    step s = .next (setPos (overLanes (maskOf s.rem) combineLane s) .emit 0 2) := by
  have he : exec (emitOp s.sub.toNat (maskOf s.rem)) s = .next (overLanes (maskOf s.rem) combineLane s) := by
    rw [hsub]
    rfl
  rw [step_emit hp hr he, advanceEmit_lt (by simpa [hsub] using Nat.lt_of_succ_le (groupSize_pos s.rem)),
    overLanes_combineLane_sub, overLanes_combineLane_rc, hsub, hrc]
  rfl

theorem exec_emitOp_increment {s : State} (h2 : 2 ≤ s.sub.toNat) :
    exec (emitOp s.sub.toNat (maskOf s.rem)) s = .next (incrementCn s) := by
  rw [emitOp_of_two_le h2]
  rfl

theorem step_increment {s : State} (hp : s.ph = .emit) (hr : ReachablePosition s) (hrc : s.rc = 0) (h2 : 2 ≤ s.sub.toNat)
    (hsub : s.sub.toNat < groupSize s.rem + 1) : step s = .next (setPos (incrementCn s) .emit 0 (s.sub + 1)) := by
  rw [step_emit hp hr (exec_emitOp_increment h2), advanceEmit_lt (s := incrementCn s) hsub, ← hrc]
  rfl

theorem step_count {s : State} (hp : s.ph = .emit) (hr : ReachablePosition s) (hsub : s.sub.toNat = groupSize s.rem + 1) :
    step s = .next (dispatch (countGroup (incrementCn s))) := by
  have h2 := two_le_groupSize_add_one s.rem
  rw [step_emit hp hr (exec_emitOp_increment (by omega))]
  exact congrArg Host.Outcome.next (if_neg (by show ¬ s.sub.toNat < groupSize s.rem + 1; omega))

/-- `LDWS` answers a next state exactly when `INC` is right, and then this one. -/
theorem exec_ldws_eq_next {s u : State} : exec .ldws s = .next u ↔ IncrementOk s ∧ u = loadVectors s := by
  by_cases h : IncrementOk s
  · rw [exec_ldws h]
    simp [h, loadVectors, eq_comm]
  · rw [ldwsRefusesWrongIncrement s h]
    simp [h]

/-- A running step leaves what `RunningStep` says. -/
theorem runningStep_of_step {s t : State} (hp : s.ph ≠ .idle) (h : step s = .next t) : RunningStep s t := by
  have hr : ReachablePosition s := by
    by_contra hr
    rw [step_of_unreachable hr] at h
    cases h
  have hr' := hr
  cases hs : s.ph with
  | idle => exact absurd hs hp
  | load =>
    simp only [ReachablePosition, hs] at hr'
    obtain ⟨-, u, -, hu⟩ := step_running h hp
    simp only [hs, reduceCtorEq, false_and, or_false, true_and] at hu
    obtain ⟨he, rfl⟩ := hu
    obtain ⟨hinc, rfl⟩ := exec_ldws_eq_next.1 he
    exact .load hs hr' hinc
  | init =>
    simp only [ReachablePosition, hs] at hr'
    rw [step_init hs hr (exec_linit (maskOf s.rem) s)] at h
    cases h
    exact .init hs hr'.1 hr'.2
  | round =>
    simp only [ReachablePosition, hs] at hr'
    obtain ⟨h1, h10, hsub, hrem⟩ := hr'
    rw [step_round hs hr (exec_roundOp _ _ s)] at h
    cases h
    exact .round hs h1 h10 hsub hrem
  | emit =>
    obtain ⟨hrc, hsub, hrem⟩ := (reachable_emit_iff hs).1 hr
    rcases sub_cases_emit s.sub with h0 | h1 | h2
    · rw [step_feedForward hs hr hrc h0] at h
      cases h
      exact .feedForward hs hrc hrem h0
    · rw [step_combine hs hr hrc h1] at h
      cases h
      exact .combine hs hrc hrem h1
    · rcases Nat.lt_or_eq_of_le hsub with hlt | heq
      · rw [step_increment hs hr hrc h2 hlt] at h
        cases h
        exact .increment hs hrc hrem h2 hlt
      · rw [step_count hs hr heq] at h
        cases h
        exact .count hs hrc hrem heq
  | writeback =>
    simp only [ReachablePosition, hs] at hr'
    rw [step_writeback hs hr] at h
    cases h
    exact .writeback hs hr'

/-- What `RunningStep` says is left by the step. -/
theorem step_of_runningStep {s t : State} (h : RunningStep s t) : step s = .next t := by
  have h2 := two_le_groupSize_add_one s.rem
  cases h with
  | load hs hsub hinc =>
    exact step_load hs (by simpa [ReachablePosition, hs] using hsub) (exec_ldws_eq_next.2 ⟨hinc, rfl⟩)
  | init hs hsub hrem => exact step_init hs (by simpa [ReachablePosition, hs] using ⟨hsub, hrem⟩) (exec_linit _ s)
  | round hs h1 h10 hsub hrem =>
    exact step_round hs (by simpa [ReachablePosition, hs] using ⟨h1, h10, hsub, hrem⟩) (exec_roundOp _ _ s)
  | feedForward hs hrc hrem hsub =>
    exact step_feedForward hs ((reachable_emit_iff hs).2 ⟨hrc, by simp [hsub], hrem⟩) hrc hsub
  | combine hs hrc hrem hsub =>
    exact step_combine hs ((reachable_emit_iff hs).2 ⟨hrc, by simp [hsub], hrem⟩) hrc hsub
  | increment hs hrc hrem h2 hsub =>
    exact step_increment hs ((reachable_emit_iff hs).2 ⟨hrc, Nat.le_of_lt hsub, hrem⟩) hrc h2 hsub
  | count hs hrc hrem hsub => exact step_count hs ((reachable_emit_iff hs).2 ⟨hrc, Nat.le_of_eq hsub, hrem⟩) hsub
  | writeback hs hsub => exact step_writeback hs (by simpa [ReachablePosition, hs] using hsub)

theorem step_eq_next_iff {s t : State} (hp : s.ph ≠ .idle) : step s = .next t ↔ RunningStep s t :=
  ⟨runningStep_of_step hp, step_of_runningStep⟩

/-- A step that answers a next state waits, accepts a `GEN`, or is a running step. -/
theorem step_cases_running {s t : State} (h : step s = .next t) :
    (s.ph = .idle ∧ s.port = none ∧ t = s) ∨
    (∃ n, n < 2 ^ s.cfg.bcw ∧ s.ph = .idle ∧ Contract s n ∧ t = acceptGen n (takeCommand s)) ∨
    (s.ph ≠ .idle ∧ RunningStep s t) := by
  obtain hwait | ⟨n, hn, hi, -, hk, ht⟩ | ⟨-, -, hp, -⟩ := step_cases h
  · exact .inl hwait
  · exact .inr (.inl ⟨n, hn, hi, hk, ht⟩)
  · exact .inr (.inr ⟨hp, (step_eq_next_iff hp).1 h⟩)

end Sys2Proof.Machine
end

section
/-! PROOFS. What every step keeps (10_state.md, 20_memory.md, 43_sequencer.md R179): the form of memory, the control registers,
what a running step stores, and the contract of the run. -/

namespace Sys2Proof.Machine

/-! The form of memory. -/

/-- Every store keeps the canonical form. -/
theorem wf_exec {i : Instr} {s t : State} (h : exec i s = .next t) (hm : Memory.wf s.mem = true) :
    Memory.wf t.mem = true := by
  have wf_combine : ∀ k u, Memory.wf u.mem = true → Memory.wf (combineLane k u).mem = true :=
    fun _ _ hu => Memory.wf_writeBytes hu _ _
  by_cases hx : ∃ lm, i = .xorst lm
  · obtain ⟨lm, rfl⟩ := hx
    cases h
    cases lm with
    | l0 => exact wf_combine 0 s hm
    | l012 => exact wf_combine 2 _ (wf_combine 1 _ (wf_combine 0 s hm))
  · by_cases hw : i = .ctrwr
    · subst hw
      cases h
      exact Memory.wf_writeBytes hm _ _
    · rw [exec_mem h (fun lm hl => hx ⟨lm, hl⟩) hw]
      exact hm

theorem advanceRound_ph_cases (s : State) : (advanceRound s).ph = .round ∨ (advanceRound s).ph = .emit := by
  rw [advanceRound_eq]
  split
  · exact .inl rfl
  · split
    · exact .inr rfl
    · exact .inl rfl

@[simp] theorem advanceRound_mem (s : State) : (advanceRound s).mem = s.mem := by rw [advanceRound_frame]

@[simp] theorem advance_mem (s : State) : (advance s).mem = s.mem := by
  unfold advance
  cases s.ph with
  | idle | init | writeback => rfl
  | load => exact dispatch_mem s
  | round => exact advanceRound_mem s
  | emit =>
    show (advanceEmit s).mem = s.mem
    unfold advanceEmit
    split
    · rfl
    · exact dispatch_mem (countGroup s)

/-- Settles O44: the transition and the acceptance store nothing, and every store keeps the form. -/
theorem memoryFormKept : Obligations.MemoryFormKept := by
  intro s t hm h
  obtain ⟨-, -, rfl⟩ | ⟨n, -, -, -, -, rfl⟩ | ⟨i, u, -, -, -, -, he, rfl⟩ := step_cases h
  · exact hm
  · exact hm
  · rw [advance_mem]
    exact wf_exec he hm

/-! The control registers. -/

theorem controlOk_dispatch {s : State} (hrem : s.rem < 2 ^ s.cfg.bcw) (hoff : s.off < 2 ^ (s.cfg.bcw + 6)) :
    ControlOk (dispatch s) := by
  refine ⟨by simpa using hrem, by simpa using hoff, ?_⟩
  unfold ReachablePosition
  rw [dispatch_ph, dispatch_sub, dispatch_rem]
  by_cases h : 1 ≤ s.rem
  · rw [if_pos h]
    exact ⟨rfl, h⟩
  · rw [if_neg h]

theorem toNat_sub_add_one {b : BitVec 3} (h : b.toNat < 7) : (b + 1).toNat = b.toNat + 1 := by
  rw [BitVec.toNat_add]
  exact Nat.mod_eq_of_lt (by simp; omega)

theorem toNat_rc_sub_one {r : BitVec 4} (h : 1 ≤ r.toNat) : (r - 1).toNat = r.toNat - 1 := by
  rw [BitVec.toNat_sub]
  simp
  omega

/-- The countdown of phase `ROUND` stays in its range, and leads to `EMIT` at 1. -/
theorem reachable_advanceRound {s : State} (h1 : 1 ≤ s.rc.toNat) (h10 : s.rc.toNat ≤ 10) (hrem : 1 ≤ s.rem) :
    ReachablePosition (advanceRound s) := by
  rw [advanceRound_eq]
  split
  · next hlt => exact ⟨h1, h10, by rw [setPos_sub, toNat_sub_add_one (by omega)]; omega, hrem⟩
  · split
    · exact (reachable_emit_iff rfl).2 ⟨rfl, Nat.zero_le _, hrem⟩
    · next hne =>
      have hrc : s.rc.toNat ≠ 1 := fun h => hne (BitVec.eq_of_toNat_eq h)
      refine ⟨?_, ?_, Nat.zero_le _, hrem⟩ <;>
      · rw [setPos_rc, toNat_rc_sub_one h1]
        omega

theorem complete_rem_lt (s : State) : (complete s).rem < 2 ^ s.cfg.bcw := Nat.mod_lt _ (Nat.two_pow_pos _)

theorem complete_off_lt (s : State) : (complete s).off < 2 ^ (s.cfg.bcw + 6) := Nat.mod_lt _ (Nat.two_pow_pos _)

theorem controlOk_runningStep {s t : State} (hc : ControlOk s) (h : RunningStep s t) : ControlOk t := by
  obtain ⟨hrem, hoff, -⟩ := hc
  cases h with
  | load hp hsub hinc => exact controlOk_dispatch hrem hoff
  | init hp hsub h1 =>
    refine ⟨?_, ?_, ?_⟩
    · simpa [initLanes] using hrem
    · simpa [initLanes] using hoff
    · exact ⟨by simp, by simp, by simp, by simpa [initLanes] using h1⟩
  | round hp h1 h10 hsub hrem1 =>
    refine ⟨?_, ?_, reachable_advanceRound (by simpa using h1) (by simpa using h10) (by simpa using hrem1)⟩
    · rw [advanceRound_frame]
      simpa using hrem
    · rw [advanceRound_frame]
      simpa using hoff
  | feedForward hp hrc h1 hsub =>
    refine ⟨by simpa using hrem, by simpa using hoff, (reachable_emit_iff rfl).2 ⟨rfl, ?_, by simpa using h1⟩⟩
    exact Nat.le_add_left 1 _
  | combine hp hrc h1 hsub =>
    refine ⟨by simpa using hrem, by simpa using hoff, (reachable_emit_iff rfl).2 ⟨rfl, ?_, by simpa using h1⟩⟩
    exact two_le_groupSize_add_one _
  | increment hp hrc h1 h2 hsub =>
    refine ⟨hrem, hoff, (reachable_emit_iff rfl).2 ⟨rfl, ?_, h1⟩⟩
    have h3 := groupSize_le_three s.rem
    rw [setPos_sub, toNat_sub_add_one (by omega)]
    exact hsub
  | count hp hrc h1 hsub => exact controlOk_dispatch (Nat.mod_lt _ (Nat.two_pow_pos _)) (Nat.mod_lt _ (Nat.two_pow_pos _))
  | writeback hp hsub => exact ⟨complete_rem_lt _, complete_off_lt _, trivial⟩

/-- Settles O45: the acceptance cuts `n` to the width of `REM`, and each transition leads to a position of R179. -/
theorem controlWidthsAndPositionKept : Obligations.ControlWidthsAndPositionKept := by
  intro s t hc h
  obtain ⟨-, -, rfl⟩ | ⟨n, hn, -, -, rfl⟩ | ⟨-, hs⟩ := step_cases_running h
  · exact hc
  · exact ⟨Nat.mod_lt _ (Nat.two_pow_pos _), Nat.mod_lt _ (Nat.two_pow_pos _), rfl⟩
  · exact controlOk_runningStep hc hs

/-! What a running step stores. -/

/-- No step changes the parameters or the placement. -/
theorem runningStep_cfg_place {s t : State} (h : RunningStep s t) : t.cfg = s.cfg ∧ t.place = s.place := by
  cases h with
  | load hp hsub hinc => exact ⟨dispatch_cfg _, dispatch_place _⟩
  | init hp hsub hrem => exact ⟨mapLanes_cfg _ _ _, mapLanes_place _ _ _⟩
  | round hp h1 h10 hsub hrem => rw [advanceRound_frame]; exact ⟨mapLanes_cfg _ _ _, mapLanes_place _ _ _⟩
  | feedForward hp hrc hrem hsub => exact ⟨mapLanes_cfg _ _ _, mapLanes_place _ _ _⟩
  | combine hp hrc hrem hsub => exact ⟨overLanes_combineLane_cfg _ _, overLanes_combineLane_place _ _⟩
  | increment hp hrc hrem h2 hsub => exact ⟨rfl, rfl⟩
  | count hp hrc hrem hsub => exact ⟨dispatch_cfg _, dispatch_place _⟩
  | writeback hp hsub => exact ⟨complete_cfg _, complete_place _⟩

/-- The memory after a running step: `XORST` and `CTRWR` store, each in its own sub-step. -/
theorem runningStep_mem {s t : State} (h : RunningStep s t) :
    t.mem = s.mem ∨
    (s.ph = .emit ∧ 1 ≤ s.rem ∧ t.ph = .emit ∧ t.mem = (overLanes (maskOf s.rem) combineLane s).mem) ∨
    (s.ph = .writeback ∧ t.ph = .idle ∧ t.mem = Memory.writeBytes s.mem (s.place.wsBase + 32) (vecBytes s.cn)) := by
  cases h with
  | load hp hsub hinc => exact .inl (dispatch_mem _)
  | init hp hsub hrem => exact .inl (mapLanes_mem _ _ _)
  | round hp h1 h10 hsub hrem => exact .inl (by simp)
  | feedForward hp hrc hrem hsub => exact .inl (mapLanes_mem _ _ _)
  | combine hp hrc hrem hsub => exact .inr (.inl ⟨hp, hrem, rfl, rfl⟩)
  | increment hp hrc hrem h2 hsub => exact .inl rfl
  | count hp hrc hrem hsub => exact .inl (dispatch_mem _)
  | writeback hp hsub => exact .inr (.inr ⟨hp, rfl, rfl⟩)

/-- In a run the slices of `XORST` lie inside `OUT`. -/
theorem slices_in_out {s : State} {n : Nat} (hrem : 1 ≤ s.rem) (hle : s.rem ≤ n) (hoff : s.off = 64 * (n - s.rem)) :
    s.off + 64 * laneCount (maskOf s.rem) ≤ 64 * n := by
  have := groupSize_le hrem
  rw [laneCount_maskOf]
  omega

/-- A running step stores in `OUT` or, as it ends the run, in `WS[32..47]`. -/
theorem runningStep_read {s t : State} (hrun : RunOk s) (h : RunningStep s t) {a : Nat}
    (hout : ¬ (s.place.outBase ≤ a ∧ a < s.place.outBase + s.place.outSize))
    (hws : t.ph = .idle → ¬ (s.place.wsBase + 32 ≤ a ∧ a < s.place.wsBase + 48)) :
    Memory.read t.mem a = Memory.read s.mem a := by
  rcases runningStep_mem h with hm | ⟨hp, hrem, -, hm⟩ | ⟨-, hidle, hm⟩
  · rw [hm]
  · obtain ⟨n, -, ⟨⟨-, hsize, -⟩, -⟩, hle, hoff, -⟩ := hrun (by simp [hp])
    have := slices_in_out hrem hle hoff
    rw [hm]
    exact read_overLanes_combineLane_other _ _ (by omega)
  · have := hws hidle
    rw [hm, Memory.read_writeBytes, if_neg (by rw [vecBytes_length]; omega)]

/-! The contract of the run. -/

theorem runningStep_increment {s t : State} (hp : s.ph ≠ .idle) (hrun : RunOk s) (h : RunningStep s t) :
    IncrementOk t := by
  obtain ⟨n, -, ⟨⟨-, hsize, -, -, -, hinc, -, -, hctr⟩, hk⟩, -⟩ := hrun hp
  unfold IncrementOk
  rw [(runningStep_cfg_place h).2, ← hk]
  refine Memory.readBytes_congr fun x h1 h2 => runningStep_read hrun h ?_ fun _ => ?_ <;> omega

/-- `REM` and `OFF` through a running step: they are kept, or a group is counted; and the phase that follows. -/
theorem runningStep_counts {s t : State} (h : RunningStep s t) (hidle : t.ph ≠ .idle) :
    t.ph ≠ .load ∧ (t.ph = .writeback → t.rem = 0) ∧
      ((t.rem = s.rem ∧ t.off = s.off) ∨
        (1 ≤ s.rem ∧ t.rem = (s.rem - groupSize s.rem) % 2 ^ s.cfg.bcw ∧
          t.off = (s.off + 64 * groupSize s.rem) % 2 ^ (s.cfg.bcw + 6))) := by
  cases h with
  | load hp hsub hinc =>
    exact ⟨dispatch_ph_ne_load _, dispatch_rem_of_writeback, .inl ⟨dispatch_rem _, dispatch_off _⟩⟩
  | init hp hsub hrem => exact ⟨by simp, by simp, .inl ⟨by simp [initLanes], by simp [initLanes]⟩⟩
  | round hp h1 h10 hsub hrem =>
    rcases advanceRound_ph_cases (mapLanes (maskOf s.rem) (fun _ l => roundLane s.sub.toNat l) s) with hph | hph <;>
    refine ⟨by simp [hph], by simp [hph], .inl ⟨?_, ?_⟩⟩ <;>
    · rw [advanceRound_frame]
      simp
  | feedForward hp hrc hrem hsub => exact ⟨by simp, by simp, .inl ⟨by simp, by simp⟩⟩
  | combine hp hrc hrem hsub => exact ⟨by simp, by simp, .inl ⟨by simp, by simp⟩⟩
  | increment hp hrc hrem h2 hsub => exact ⟨by simp, by simp, .inl ⟨rfl, rfl⟩⟩
  | count hp hrc hrem hsub =>
    exact ⟨dispatch_ph_ne_load _, dispatch_rem_of_writeback, .inr ⟨hrem, dispatch_rem _, dispatch_off _⟩⟩
  | writeback hp hsub => exact absurd rfl hidle

theorem runOk_runningStep {s t : State} (hp : s.ph ≠ .idle) (hrun : RunOk s) (h : RunningStep s t) : RunOk t := by
  intro hidle
  obtain ⟨hcfg, hplace⟩ := runningStep_cfg_place h
  have hinc := runningStep_increment hp hrun h
  obtain ⟨n, hn, ⟨hpl, -⟩, hle, hoff, -⟩ := hrun hp
  obtain ⟨hload, hwb, hcount⟩ := runningStep_counts h hidle
  refine ⟨n, hcfg ▸ hn, ⟨hplace ▸ hpl, hinc⟩, ?_⟩
  have hoffs : t.rem ≤ n ∧ t.off = 64 * (n - t.rem) := by
    rcases hcount with ⟨hr, ho⟩ | ⟨hrem, hr, ho⟩
    · rw [hr, ho]
      exact ⟨hle, hoff⟩
    · have hg := groupSize_le hrem
      have hw : 2 ^ (s.cfg.bcw + 6) = 2 ^ s.cfg.bcw * 64 := pow_add 2 _ 6
      rw [Nat.mod_eq_of_lt (by omega)] at hr
      rw [Nat.mod_eq_of_lt (by omega)] at ho
      omega
  exact ⟨hoffs.1, hoffs.2, fun hl => absurd hl hload, hwb⟩

/-- Settles O46: the acceptance has checked the contract, no step stores in `INC`, and a group counted moves `OFF` by 64 bytes for
each block that it takes from `REM`. -/
theorem runContractKept : Obligations.RunContractKept := by
  intro s t hc hrun h
  obtain ⟨-, -, rfl⟩ | ⟨n, hn, -, hk, rfl⟩ | ⟨hp, hs⟩ := step_cases_running h
  · exact hrun
  · intro _
    have hrem : (acceptGen n (takeCommand s)).rem = n := Nat.mod_eq_of_lt hn
    refine ⟨n, hn, hk, le_of_eq hrem, ?_, fun _ => hrem, nofun⟩
    rw [hrem, acceptGen_off, Nat.zero_mod, Nat.sub_self]
  · exact runOk_runningStep hp hrun hs

end Sys2Proof.Machine
end

section
/-! PROOFS. The registers through a run (10_state.md R11 to R17), what the memory keeps, and the control (43_sequencer.md R181). -/

namespace Sys2Proof.Machine

@[simp] theorem getLane_setPos (s : State) (p : Phase) (r : BitVec 4) (b : BitVec 3) (k : Nat) :
    getLane (setPos s p r b) k = getLane s k := by
  unfold getLane; split <;> rfl

@[simp] theorem getLane_advanceRound (s : State) (k : Nat) : getLane (advanceRound s) k = getLane s k := by
  rw [advanceRound_frame]
  unfold getLane; split <;> rfl

/-- The lane groups of the mask of `REM` after an operation on them. -/
theorem getLane_mapLanes_maskOf (f : Nat → Lane → Lane) (s : State) {k rem : Nat} (hk : k < groupSize rem) :
    getLane (mapLanes (maskOf rem) f s) k = f k (getLane s k) := by
  have h3 := groupSize_le_three rem
  rw [getLane_mapLanes _ _ _ _ (by omega), laneCount_maskOf, if_pos hk]

/-! The loaded registers. -/

/-- Blocks counted so far: those of the groups done, and the increments of the present one. -/
def blocksCounted (s : State) : Nat := s.off / 64 + incrementsDone s

theorem blocksCounted_of_ne_emit {s : State} (h : s.ph ≠ .emit) : blocksCounted s = s.off / 64 := by
  rw [blocksCounted, incrementsDone, if_neg h, Nat.add_zero]

theorem blocksCounted_of_emit {s : State} (h : s.ph = .emit) : blocksCounted s = s.off / 64 + (s.sub.toNat - 2) := by
  rw [blocksCounted, incrementsDone, if_pos h]

theorem blocksCounted_dispatch (s : State) : blocksCounted (dispatch s) = s.off / 64 := by
  rw [blocksCounted_of_ne_emit (dispatch_ph_ne_emit s), dispatch_off]

/-- Within `ROUND`, and as it leads to `EMIT`, no increment has been issued. -/
theorem blocksCounted_advanceRound (s : State) : blocksCounted (advanceRound s) = s.off / 64 := by
  rw [advanceRound_eq]
  split
  · rw [blocksCounted_of_ne_emit (by simp), setPos_off]
  · split
    · rw [blocksCounted_of_emit rfl]
      rfl
    · rw [blocksCounted_of_ne_emit (by simp), setPos_off]

/-- Past `LOAD` a running step keeps `SIGMA`, `K0`, `K1` and the nonce, and advances the counter by the blocks it counts. -/
theorem runningStep_registers {s t : State} (hload : s.ph ≠ .load) (hrun : RunOk s) (h : RunningStep s t)
    (hidle : t.ph ≠ .idle) :
    t.sigma = s.sigma ∧ t.k0 = s.k0 ∧ t.k1 = s.k1 ∧
      ∃ d, t.cn = counterVec s.cn d ∧ blocksCounted t = blocksCounted s + d := by
  have same : t.sigma = s.sigma → t.k0 = s.k0 → t.k1 = s.k1 → t.cn = s.cn → blocksCounted t = blocksCounted s →
      t.sigma = s.sigma ∧ t.k0 = s.k0 ∧ t.k1 = s.k1 ∧
        ∃ d, t.cn = counterVec s.cn d ∧ blocksCounted t = blocksCounted s + d :=
    fun h1 h2 h3 h4 h5 => ⟨h1, h2, h3, 0, by rw [h4, counterVec_zero], h5⟩
  cases h with
  | load hp hsub hinc => exact absurd hp hload
  | init hp hsub hrem =>
    refine same (mapLanes_sigma _ _ _) (mapLanes_k0 _ _ _) (mapLanes_k1 _ _ _) (mapLanes_cn _ _ _) ?_
    rw [blocksCounted_of_ne_emit (by simp), blocksCounted_of_ne_emit (by simp [hp]), setPos_off, initLanes, mapLanes_off]
  | round hp h1 h10 hsub hrem =>
    refine same ?_ ?_ ?_ ?_ ?_
    · rw [advanceRound_frame]; exact mapLanes_sigma _ _ _
    · rw [advanceRound_frame]; exact mapLanes_k0 _ _ _
    · rw [advanceRound_frame]; exact mapLanes_k1 _ _ _
    · rw [advanceRound_frame]; exact mapLanes_cn _ _ _
    · rw [blocksCounted_advanceRound, blocksCounted_of_ne_emit (by simp [hp]), mapLanes_off]
  | feedForward hp hrc hrem hsub =>
    refine same (mapLanes_sigma _ _ _) (mapLanes_k0 _ _ _) (mapLanes_k1 _ _ _) (mapLanes_cn _ _ _) ?_
    rw [blocksCounted_of_emit rfl, blocksCounted_of_emit hp, hsub, setPos_off, mapLanes_off]
    rfl
  | combine hp hrc hrem hsub =>
    refine same (overLanes_combineLane_sigma _ _) (overLanes_combineLane_k0 _ _) (overLanes_combineLane_k1 _ _)
      (overLanes_combineLane_cn _ _) ?_
    rw [blocksCounted_of_emit rfl, blocksCounted_of_emit hp, hsub, setPos_off, overLanes_combineLane_off]
    rfl
  | increment hp hrc hrem h2 hsub =>
    have h3 := groupSize_le_three s.rem
    refine ⟨rfl, rfl, rfl, 1, add64x2_one s.cn, ?_⟩
    rw [blocksCounted_of_emit rfl, blocksCounted_of_emit hp, setPos_sub, toNat_sub_add_one (by omega)]
    show s.off / 64 + (s.sub.toNat + 1 - 2) = s.off / 64 + (s.sub.toNat - 2) + 1
    omega
  | count hp hrc hrem hsub =>
    refine ⟨dispatch_sigma _, dispatch_k0 _, dispatch_k1 _, 1, (dispatch_cn _).trans (add64x2_one s.cn), ?_⟩
    obtain ⟨n, hn, -, hle, hoff, -⟩ := hrun (by simp [hp])
    have hg := groupSize_le hrem
    have hpos := groupSize_pos s.rem
    have hw : 2 ^ (s.cfg.bcw + 6) = 2 ^ s.cfg.bcw * 64 := pow_add 2 _ 6
    have hoff' : (countGroup (incrementCn s)).off = s.off + 64 * groupSize s.rem := Nat.mod_eq_of_lt (by
      show s.off + 64 * groupSize s.rem < 2 ^ (s.cfg.bcw + 6)
      omega)
    rw [blocksCounted_dispatch, blocksCounted_of_emit hp, hoff', hsub]
    omega
  | writeback hp hsub => exact absurd rfl hidle

/-- In a run a step that does not end it leaves `CONST` and `WS`. -/
theorem runningStep_memRead {s t : State} (hp : s.ph ≠ .idle) (hrun : RunOk s) (h : RunningStep s t)
    (hidle : t.ph ≠ .idle) :
    memRead t .const 0 16 = memRead s .const 0 16 ∧
      ∀ o n, o + n ≤ 48 → memRead t .ws o n = memRead s .ws o n := by
  obtain ⟨n, -, ⟨⟨-, hsize, -, hws, hconst, -⟩, -⟩, -⟩ := hrun hp
  simp only [memRead, (runningStep_cfg_place h).2, spaceBase]
  refine ⟨?_, fun o m hom => ?_⟩ <;>
  · refine Memory.readBytes_congr fun x h1 h2 => runningStep_read hrun h ?_ fun hi => absurd hi hidle
    omega

theorem loadedOk_runningStep {s t : State} (hp : s.ph ≠ .idle) (hrun : RunOk s) (hl : LoadedOk s)
    (h : RunningStep s t) : LoadedOk t := by
  intro hidle _
  obtain ⟨hconst, hws⟩ := runningStep_memRead hp hrun h hidle
  rw [hconst, hws 0 16 (by omega), hws 16 16 (by omega), hws 32 16 (by omega)]
  by_cases hload : s.ph = .load
  · obtain ⟨n, -, -, -, hoff, hn, -⟩ := hrun hp
    have hoff0 : s.off = 0 := by rw [hoff, hn hload]; omega
    cases h with
    | load _ hsub hinc =>
      have hb : (dispatch (loadVectors s)).off / 64 + incrementsDone (dispatch (loadVectors s)) = 0 := by
        rw [← blocksCounted, blocksCounted_dispatch]
        show s.off / 64 = 0
        rw [hoff0]
      rw [hb, dispatch_sigma, dispatch_k0, dispatch_k1, dispatch_cn]
      exact ⟨rfl, rfl, rfl, rfl, (BitVec.add_zero _).symm⟩
    | init hs | round hs | feedForward hs | combine hs | increment hs | count hs | writeback hs => simp [hs] at hload
  · obtain ⟨hsg, hk0, hk1, hq1, hq0⟩ := hl hp hload
    obtain ⟨tsg, tk0, tk1, d, hcn, hd⟩ := runningStep_registers hload hrun h hidle
    refine ⟨tsg.trans hsg, tk0.trans hk0, tk1.trans hk1, by rw [hcn, q1_counterVec, hq1], ?_⟩
    rw [← blocksCounted] at hq0 ⊢
    rw [hcn, q0_counterVec, hq0, hd, BitVec.ofNat_add, BitVec.add_assoc]

/-- Settles O47: `LDWS` loads the registers, and from then on only `CTRINC` changes one, once for each block counted. -/
theorem loadedRegistersKept : Obligations.LoadedRegistersKept := by
  intro s t _ hrun hl h
  obtain ⟨-, -, rfl⟩ | ⟨n, -, -, -, rfl⟩ | ⟨hp, hs⟩ := step_cases_running h
  · exact hl
  · exact fun _ hload => absurd rfl hload
  · exact loadedOk_runningStep hp hrun hl hs

/-! What the memory keeps. -/

/-- The last eight bytes of the image of `CN` are those of its nonce. -/
theorem vecBytes_getD_of_q1 {v u : V128} (h : q1 v = q1 u) {j : Nat} (h8 : 8 ≤ j) (h16 : j < 16) :
    (vecBytes v).getD j 0 = (vecBytes u).getD j 0 := by
  obtain ⟨h2, h3⟩ := nonce_words_eq_of_q1 h
  have hsplit : 4 * (j / 4) + j % 4 = j := Nat.div_add_mod j 4
  have hw : vword v (j / 4) = vword u (j / 4) := by
    obtain hj | hj : j / 4 = 2 ∨ j / 4 = 3 := by omega
    · rw [hj]; exact h2
    · rw [hj]; exact h3
  rw [← hsplit, vecBytes_getD _ (by omega) (by omega), vecBytes_getD _ (by omega) (by omega), hw]

/-- `CTRWR` stores back the nonce it finds, so that of `WS` only the counter's eight bytes change. -/
theorem read_ctrwr_nonce {s : State} (hq1 : q1 s.cn = q1 (bytesVec (memRead s .ws 32 16))) {a : Nat}
    (ha : ¬ (s.place.wsBase + 32 ≤ a ∧ a < s.place.wsBase + 40)) :
    Memory.read (Memory.writeBytes s.mem (s.place.wsBase + 32) (vecBytes s.cn)) a = Memory.read s.mem a := by
  rw [Memory.read_writeBytes, vecBytes_length]
  split
  · have h8 : 8 ≤ a - (s.place.wsBase + 32) := by omega
    have h16 : a - (s.place.wsBase + 32) < 16 := by omega
    rw [vecBytes_getD_of_q1 hq1 h8 h16, vecBytes_bytesVec_getD _ h16, memRead, Memory.readBytes_getD _ _ _ _ h16]
    congr 1
    show s.place.wsBase + 32 + (a - (s.place.wsBase + 32)) = a
    omega
  · rfl

/-- Settles O52: `XORST` stores in `OUT`, and `CTRWR` stores the nonce it finds. -/
theorem onlyOutAndCounterWritten : Obligations.OnlyOutAndCounterWritten := by
  intro s t _ hrun hl h
  obtain ⟨-, -, rfl⟩ | ⟨n, -, -, -, rfl⟩ | ⟨hp, hs⟩ := step_cases_running h
  · exact ⟨rfl, rfl, fun _ _ _ => rfl⟩
  · exact ⟨rfl, rfl, fun _ _ _ => rfl⟩
  · refine ⟨(runningStep_cfg_place hs).1, (runningStep_cfg_place hs).2, fun a hout hctr => ?_⟩
    rcases runningStep_mem hs with hm | ⟨-, -, hemit, -⟩ | ⟨hwb, -, hm⟩
    · rw [hm]
    · exact runningStep_read hrun hs hout fun hi => absurd (hemit.symm.trans hi) (by simp)
    · obtain ⟨-, -, -, hq1, -⟩ := hl hp (by simp [hwb])
      rw [hm]
      exact read_ctrwr_nonce hq1 hctr

/-! The saved copies. -/

/-- No sub-step of `ROUND` writes the saved copies (R22). -/
theorem roundLane_saved (n : Nat) (l : Lane) :
    (roundLane n l).sa = l.sa ∧ (roundLane n l).sb = l.sb ∧ (roundLane n l).sc = l.sc ∧ (roundLane n l).sd = l.sd := by
  match n with
  | 0 | 1 | 2 | _ + 3 => exact ⟨rfl, rfl, rfl, rfl⟩

theorem savedOk_of_not_saving {s : State} (h1 : s.ph ≠ .round) (h2 : s.ph = .emit → 2 ≤ s.sub.toNat) : SavedOk s := by
  rintro (h | ⟨h, hle⟩)
  · exact absurd h h1
  · have := h2 h
    omega

theorem savedOk_dispatch (s : State) : SavedOk (dispatch s) :=
  savedOk_of_not_saving (dispatch_ph_ne_round s) fun h => absurd h (dispatch_ph_ne_emit s)

theorem savedOk_runningStep {s t : State} (hsv : SavedOk s) (h : RunningStep s t) : SavedOk t := by
  cases h with
  | load hp hsub hinc => exact savedOk_dispatch _
  | init hp hsub hrem =>
    intro _ k hk
    rw [setPos_rem, initLanes, mapLanes_rem] at hk
    rw [getLane_setPos, initLanes, getLane_mapLanes_maskOf _ _ hk]
    simp [initLane, cnPlus_eq]
  | round hp h1 h10 hsub hrem =>
    intro _ k hk
    rw [advanceRound_frame] at hk ⊢
    simp only [mapLanes_rem] at hk
    obtain ⟨ha, hb, hc, hd⟩ := hsv (.inl hp) k hk
    obtain ⟨ra, rb, rc, rd⟩ := roundLane_saved s.sub.toNat (getLane s k)
    rw [← advanceRound_frame, getLane_advanceRound, getLane_mapLanes_maskOf _ _ hk, ra, rb, rc, rd]
    rw [advanceRound_frame]
    simpa using ⟨ha, hb, hc, hd⟩
  | feedForward hp hrc hrem hsub =>
    intro _ k hk
    rw [setPos_rem, mapLanes_rem] at hk
    rw [getLane_setPos, getLane_mapLanes_maskOf _ _ hk]
    simpa [ffaddLane] using hsv (.inr ⟨hp, by simp [hsub]⟩) k hk
  | combine hp hrc hrem hsub => exact savedOk_of_not_saving (by simp) fun _ => by simp
  | increment hp hrc hrem h2 hsub =>
    have h3 := groupSize_le_three s.rem
    refine savedOk_of_not_saving (by simp) fun _ => ?_
    rw [setPos_sub, toNat_sub_add_one (by omega)]
    omega
  | count hp hrc hrem hsub => exact savedOk_dispatch _
  | writeback hp hsub => exact savedOk_of_not_saving (by simp) (by simp)

/-- Settles O48: `LINIT` saves what it initialises from, and no sub-step up to the combine writes a saved copy. -/
theorem savedCopiesKept : Obligations.SavedCopiesKept := by
  intro s t _ hsv h
  obtain ⟨-, -, rfl⟩ | ⟨n, -, -, -, rfl⟩ | ⟨-, hs⟩ := step_cases_running h
  · exact hsv
  · exact savedOk_of_not_saving (by simp) (by simp)
  · exact savedOk_runningStep hsv hs

/-- Settles O41: at reset nothing is running. -/
theorem resetMeetsInvariants : Obligations.ResetMeetsInvariants := by
  have hidle : State.reset.ph = .idle := rfl
  refine ⟨rfl, ⟨Nat.two_pow_pos _, Nat.two_pow_pos _, trivial⟩, fun h => absurd hidle h, fun h => absurd hidle h, ?_⟩
  exact savedOk_of_not_saving (by simp [hidle]) (by simp [hidle])

/-- Settles O40: the state after reset is written out. -/
theorem resetIsIdle : Obligations.ResetIsIdle := ⟨rfl, rfl, rfl⟩

/-! The flags and `CN`. -/

theorem runningStep_flags {s t : State} (h : RunningStep s t) :
    (t.done = s.done ∧ t.ph ≠ .idle) ∨ (s.ph = .writeback ∧ t.ph = .idle ∧ t.done = true) := by
  cases h with
  | load hp hsub hinc => exact .inl ⟨dispatch_done _, dispatch_ph_ne_idle _⟩
  | init hp hsub hrem => exact .inl ⟨mapLanes_done _ _ _, by simp⟩
  | round hp h1 h10 hsub hrem =>
    refine .inl ⟨by rw [advanceRound_frame]; exact mapLanes_done _ _ _, ?_⟩
    rcases advanceRound_ph_cases (mapLanes (maskOf s.rem) (fun _ l => roundLane s.sub.toNat l) s) with hph | hph <;>
    simp [hph]
  | feedForward hp hrc hrem hsub => exact .inl ⟨mapLanes_done _ _ _, by simp⟩
  | combine hp hrc hrem hsub => exact .inl ⟨overLanes_combineLane_done _ _, by simp⟩
  | increment hp hrc hrem h2 hsub => exact .inl ⟨rfl, by simp⟩
  | count hp hrc hrem hsub => exact .inl ⟨dispatch_done _, dispatch_ph_ne_idle _⟩
  | writeback hp hsub => exact .inr ⟨hp, rfl, rfl⟩

/-- Settles O50: waiting changes no flag, and of the running steps only the one of `WRITEBACK` does. -/
theorem flagsChangeOnlyAtTheEnds : Obligations.FlagsChangeOnlyAtTheEnds := by
  intro s t h
  obtain ⟨-, -, rfl⟩ | ⟨n, -, hidle, -, rfl⟩ | ⟨hp, hs⟩ := step_cases_running h
  · exact ⟨.inl rfl, .inl rfl⟩
  · exact ⟨.inr (.inr ⟨hidle, rfl, rfl⟩), .inr (.inr ⟨hidle, rfl, rfl⟩)⟩
  · rcases runningStep_flags hs with ⟨hd, hb⟩ | hend
    · exact ⟨.inl hd, .inl ((busy_of_ne_idle hb).trans (busy_of_ne_idle hp).symm)⟩
    · exact ⟨.inr (.inl hend), .inr (.inl hend)⟩

/-- Settles O51: the operations on lane groups and on memory keep `CN`, and `CTRINC` adds to its low lane. -/
theorem nonceAndCounterWriters : Obligations.NonceAndCounterWriters := by
  intro i s t h hl
  have keeps : t.cn = s.cn → q1 t.cn = q1 s.cn ∧ (i ≠ .ctrinc → t.cn = s.cn) :=
    fun hcn => ⟨congrArg q1 hcn, fun _ => hcn⟩
  cases i with
  | gen n =>
    obtain ⟨-, -, rfl⟩ := execGen_eq_next.1 h
    exact keeps rfl
  | ldws => exact absurd rfl hl
  | linit lm | qr lm | diag lm | undiag lm | ffadd lm =>
    cases h
    exact keeps (mapLanes_cn _ _ _)
  | xorst lm =>
    cases h
    exact keeps (overLanes_combineLane_cn _ _)
  | ctrinc =>
    cases h
    exact ⟨q1_cnPlus s.cn 1, fun hne => absurd rfl hne⟩
  | ctrwr =>
    cases h
    exact keeps rfl

/-! Control does not look at data (R181). -/

theorem controlPart_eq_iff (s t : State) :
    controlPart s = controlPart t ↔
      s.cfg = t.cfg ∧ s.place = t.place ∧ s.port = t.port ∧ s.rem = t.rem ∧ s.off = t.off ∧ s.ph = t.ph ∧ s.rc = t.rc ∧
        s.sub = t.sub ∧ s.done = t.done ∧ s.freeIx = t.freeIx := by
  simp [controlPart]

theorem controlPart_setPos {s t : State} (h : controlPart s = controlPart t) (p : Phase) (r : BitVec 4) (b : BitVec 3) :
    controlPart (setPos s p r b) = controlPart (setPos t p r b) := by
  obtain ⟨hcfg, hpl, hport, hrem, hoff, -, -, -, hdone, hfree⟩ := controlPart_fields h
  rw [controlPart_eq_iff]
  simp [hcfg, hpl, hport, hrem, hoff, hdone, hfree]

theorem controlPart_dispatch {s t : State} (h : controlPart s = controlPart t) :
    controlPart (dispatch s) = controlPart (dispatch t) := by
  obtain ⟨-, -, -, hrem, -, -, hrc, -⟩ := controlPart_fields h
  unfold dispatch
  rw [hrem, hrc]
  split <;> exact controlPart_setPos h _ _ _

theorem controlPart_advance {s t : State} (h : controlPart s = controlPart t) :
    controlPart (advance s) = controlPart (advance t) := by
  obtain ⟨hcfg, hpl, hport, hrem, hoff, hph, hrc, hsub, hdone, hfree⟩ := controlPart_fields h
  unfold advance
  rw [hph]
  cases t.ph with
  | idle => exact h
  | load => exact controlPart_dispatch h
  | init => exact controlPart_setPos h _ _ _
  | round =>
    show controlPart (advanceRound s) = controlPart (advanceRound t)
    rw [advanceRound_eq, advanceRound_eq, hsub, hrc]
    split
    · exact controlPart_setPos h _ _ _
    · split <;> exact controlPart_setPos h _ _ _
  | emit =>
    show controlPart (advanceEmit s) = controlPart (advanceEmit t)
    unfold advanceEmit
    rw [hsub, hrc, hrem]
    split
    · exact controlPart_setPos h _ _ _
    · refine controlPart_dispatch ?_
      rw [controlPart_eq_iff]
      simp [hcfg, hpl, hport, hrem, hoff, hph, hrc, hsub, hdone, hfree]
  | writeback =>
    rw [controlPart_eq_iff]
    simp [complete, freeRegisters, hcfg, hpl, hport, hrem, hoff, hrc, hsub, hfree]

/-- The sizes of the buffers tell the block count of a launch. -/
theorem contract_unique {s t : State} {n m : Nat} (hs : Contract s n) (ht : Contract t m) (h : s.place = t.place) :
    n = m := by
  obtain ⟨⟨hn, -⟩, -⟩ := hs
  obtain ⟨⟨hm, -⟩, -⟩ := ht
  rw [h] at hn
  omega

/-- Settles O53: a micro-operation leaves the control part, and the transition is a function of it. -/
theorem controlIndependentOfData : Obligations.ControlIndependentOfData := by
  intro s s' t t' hc h h'
  obtain ⟨hcfg, hpl, hport, hrem, hoff, hph, hrc, hsub, hdone, hfree⟩ := controlPart_fields hc
  obtain ⟨hi, hno, rfl⟩ | ⟨n, -, hi, hsome, hk, rfl⟩ | ⟨i, u, hi, -, hfmt, -, he, rfl⟩ := step_cases h <;>
  obtain ⟨hi', hno', rfl⟩ | ⟨n', -, hi', hsome', hk', rfl⟩ | ⟨i', u', hi', -, hfmt', -, he', rfl⟩ := step_cases h'
  · exact hc
  · exact absurd (hport ▸ hno) hsome'
  · exact absurd (hph ▸ hi) hi'
  · exact absurd (hport ▸ hno') hsome
  · obtain rfl := contract_unique hk hk' hpl
    rw [controlPart_eq_iff]
    simp [hcfg, hpl, hrc, hfree]
  · exact absurd (hph ▸ hi) hi'
  · exact absurd (hph ▸ hi') hi
  · exact absurd (hph ▸ hi') hi
  · exact controlPart_advance ((exec_controlPart he hfmt).trans (hc.trans (exec_controlPart he' hfmt').symm))

end Sys2Proof.Machine
end

section
/-! PROOFS. The mixer on lane groups (40_mixer.md R102 to R109): rotations of words and of bits, the inverse of the quarter round,
and lists of lane operations as one function of a lane group. -/

namespace Sys2Proof.Machine

/-! Word rotations. -/

theorem vword_congr (v : V128) {i j : Nat} (h : i % 4 = j % 4) : vword v i = vword v j := by
  simp only [vword, h]

theorem vword_rotw_mod (v : V128) (k i : Nat) : vword (rotw v k) i = vword v ((i + k) % 4) := by
  rw [vword_rotw]
  exact vword_congr v (Nat.mod_mod _ 4).symm

theorem rotw_rotw (v : V128) (j k : Nat) : rotw (rotw v j) k = rotw v ((j + k) % 4) := by
  apply vec_eq_of_words
  intro i _
  simp only [vword_rotw]
  exact vword_congr v (by omega)

theorem rotw_four (v : V128) : rotw v 4 = v := rfl

theorem rotw_zero (v : V128) : rotw v 0 = v := rfl

/-- Settles O30: word `i` of either side is the same word of `v`. -/
theorem wordRotationsCompose : Obligations.WordRotationsCompose := fun v j k => ⟨rotw_rotw v j k, rotw_four v⟩

/-- Settles O23: `DIAG` rotates `B`, `C`, `D` by 1, 2, 3 words. -/
theorem diagResult : Obligations.DiagResult := by
  refine ⟨by decide, by decide, fun lm s => ⟨_, exec_diag lm s, mapLanes_frame lm _ s, fun k hk => ?_⟩⟩
  rw [getLane_mapLanes_mask lm _ s hk]
  split
  · exact ⟨rfl, fun i _ => ⟨vword_rotw_mod _ 1 i, vword_rotw_mod _ 2 i, vword_rotw_mod _ 3 i⟩⟩
  · rfl

/-- Settles O24: `UNDIAG` rotates `B`, `C`, `D` by 3, 2, 1 words. -/
theorem undiagResult : Obligations.UndiagResult := by
  refine ⟨by decide, by decide, fun lm s => ⟨_, exec_undiag lm s, mapLanes_frame lm _ s, fun k hk => ?_⟩⟩
  rw [getLane_mapLanes_mask lm _ s hk]
  split
  · exact ⟨rfl, fun i _ => ⟨vword_rotw_mod _ 3 i, vword_rotw_mod _ 2 i, vword_rotw_mod _ 1 i⟩⟩
  · rfl

theorem undiagLane_diagLane (l : Lane) : undiagLane (diagLane l) = l := by
  simp [undiagLane, diagLane, rotw_rotw, rotw_zero]

theorem diagLane_undiagLane (l : Lane) : diagLane (undiagLane l) = l := by
  simp [undiagLane, diagLane, rotw_rotw, rotw_zero]

/-! Lists of lane operations. -/

theorem execList_cons (i : Instr) (is : List Instr) (s : State) :
    execList (i :: is) s = andThen (exec i s) (execList is) := rfl

theorem execList_append (is js : List Instr) (s : State) :
    execList (is ++ js) s = andThen (execList is s) (execList js) := by
  induction is generalizing s with
  | nil => rfl
  | cons i is ih =>
    rw [List.cons_append, execList_cons, execList_cons]
    cases exec i s with
    | next u => exact ih u
    | fault r | refused r => rfl

theorem mapLanes_mapLanes (lm : LaneMask) (f g : Nat → Lane → Lane) (s : State) :
    mapLanes lm g (mapLanes lm f s) = mapLanes lm (fun k l => g k (f k l)) s := by
  cases lm <;> rfl

theorem mapLanes_id (lm : LaneMask) (s : State) : mapLanes lm (fun _ l => l) s = s := by
  cases lm <;> rfl

/-- Settles O31: the two rotations of each vector add up to four words. -/
theorem diagAndUndiagUndoEachOther : Obligations.DiagAndUndiagUndoEachOther := by
  refine fun lm s => ⟨?_, ?_⟩
  · simp only [execList, exec_diag, exec_undiag, andThen, mapLanes_mapLanes, undiagLane_diagLane, mapLanes_id]
  · simp only [execList, exec_diag, exec_undiag, andThen, mapLanes_mapLanes, diagLane_undiagLane, mapLanes_id]

theorem execList_droundOps (lm : LaneMask) (s : State) :
    execList (droundOps lm) s = .next (mapLanes lm (fun _ l => droundLane l) s) := by
  simp only [droundOps, execList, exec_qr, exec_diag, exec_undiag, andThen, mapLanes_mapLanes, droundLane]

theorem execList_repeat_dround (n : Nat) (lm : LaneMask) (s : State) :
    execList (repeatOps n (droundOps lm)) s = .next (mapLanes lm (fun _ l => roundsLane n l) s) := by
  induction n generalizing s with
  | zero => exact congrArg Host.Outcome.next (mapLanes_id lm s).symm
  | succ n ih =>
    rw [repeatOps, execList_append, execList_droundOps, andThen, ih, mapLanes_mapLanes]
    rfl

theorem execList_roundsOps (lm : LaneMask) (s : State) :
    execList (roundsOps lm) s = .next (mapLanes lm (fun _ l => roundsLane 10 l) s) :=
  execList_repeat_dround 10 lm s

/-- Settles O34: each list maps one function of a lane group over the three. -/
theorem laneGroupsIndependent : Obligations.LaneGroupsIndependent := by
  rintro ops (rfl | rfl | rfl | rfl)
  · exact ⟨qrLane, fun s => ⟨_, rfl, rfl⟩⟩
  · exact ⟨diagLane, fun s => ⟨_, rfl, rfl⟩⟩
  · exact ⟨undiagLane, fun s => ⟨_, rfl, rfl⟩⟩
  · exact ⟨roundsLane 10, fun s => ⟨_, execList_roundsOps .l012 s, rfl⟩⟩

theorem execList_ctradd3Ops (s : State) : execList ctradd3Ops s = .next { s with cn := cnPlus s.cn 3 } := rfl

/-- Settles O35: three increments are the counter three on. -/
theorem threeIncrementsAddThree : Obligations.ThreeIncrementsAddThree :=
  fun s => ⟨_, execList_ctradd3Ops s, rfl, q0_cnPlus_toNat s.cn 3, q1_cnPlus s.cn 3⟩

/-! The quarter round has an inverse (R102). -/

/-- Bit `i` of a rotated word. -/
theorem getLsbD_rotl32 (x : W32) {n i : Nat} (hn : n < 32) (hi : i < 32) :
    (rotl32 x n).getLsbD i = x.getLsbD ((i + (32 - n)) % 32) := by
  simp only [rotl32, BitVec.getLsbD_or, BitVec.getLsbD_shiftLeft, BitVec.getLsbD_ushiftRight]
  by_cases hin : i < n
  · have hidx : (i + (32 - n)) % 32 = 32 - n + i := by omega
    simp [hin, hidx]
  · have hout : x.getLsbD (32 - n + i) = false := BitVec.getLsbD_of_ge x _ (by omega)
    have hidx : (i + (32 - n)) % 32 = i - n := by omega
    simp [hin, hi, hout, hidx]

/-- Two rotations that add up to the width cancel. -/
theorem rotl32_rotl32 (x : W32) {n m : Nat} (hn : n < 32) (hm : m < 32) (h : n + m = 32) : rotl32 (rotl32 x n) m = x := by
  apply BitVec.eq_of_getLsbD_eq
  intro i hi
  rw [getLsbD_rotl32 _ hm hi, getLsbD_rotl32 _ hn (Nat.mod_lt _ (by omega))]
  congr 1
  omega

/-- The inverse of the word-level quarter round: its assignments undone from the last to the first. -/
def unqrWord (a2 b2 c2 d2 : W32) : WordGroup :=
  let b1 := rotl32 b2 25 ^^^ c2
  let c1 := c2 - d2
  let d1 := rotl32 d2 24 ^^^ a2
  let a1 := a2 - b1
  let b := rotl32 b1 20 ^^^ c1
  let c := c1 - d1
  let d := rotl32 d1 16 ^^^ a1
  { a := a1 - b, b := b, c := c, d := d }

theorem xor_xor_cancel (x y : W32) : x ^^^ y ^^^ y = x := by
  rw [BitVec.xor_assoc, BitVec.xor_self, BitVec.xor_zero]

theorem unqrWord_qrWord (a b c d : W32) :
    unqrWord (qrWord a b c d).a (qrWord a b c d).b (qrWord a b c d).c (qrWord a b c d).d =
      { a := a, b := b, c := c, d := d } := by
  have r7 : ∀ x, rotl32 (rotl32 x 7) 25 = x := fun x => rotl32_rotl32 x (by omega) (by omega) rfl
  have r8 : ∀ x, rotl32 (rotl32 x 8) 24 = x := fun x => rotl32_rotl32 x (by omega) (by omega) rfl
  have r12 : ∀ x, rotl32 (rotl32 x 12) 20 = x := fun x => rotl32_rotl32 x (by omega) (by omega) rfl
  have r16 : ∀ x, rotl32 (rotl32 x 16) 16 = x := fun x => rotl32_rotl32 x (by omega) (by omega) rfl
  simp only [unqrWord, qrWord, r7, r8, r12, r16, xor_xor_cancel, BitVec.add_sub_cancel]

theorem qrWord_unqrWord (a b c d : W32) :
    qrWord (unqrWord a b c d).a (unqrWord a b c d).b (unqrWord a b c d).c (unqrWord a b c d).d =
      { a := a, b := b, c := c, d := d } := by
  have r7 : ∀ x, rotl32 (rotl32 x 25) 7 = x := fun x => rotl32_rotl32 x (by omega) (by omega) rfl
  have r8 : ∀ x, rotl32 (rotl32 x 24) 8 = x := fun x => rotl32_rotl32 x (by omega) (by omega) rfl
  have r12 : ∀ x, rotl32 (rotl32 x 20) 12 = x := fun x => rotl32_rotl32 x (by omega) (by omega) rfl
  have r16 : ∀ x, rotl32 (rotl32 x 16) 16 = x := fun x => rotl32_rotl32 x (by omega) (by omega) rfl
  simp only [unqrWord, qrWord, BitVec.sub_add_cancel, xor_xor_cancel, r7, r8, r12, r16]

/-- The inverse of the quarter round on a lane group, word position by word position. -/
def unqrLane (l : Lane) : Lane :=
  laneOfWords l (unqrWord l.a.w0 l.b.w0 l.c.w0 l.d.w0) (unqrWord l.a.w1 l.b.w1 l.c.w1 l.d.w1)
    (unqrWord l.a.w2 l.b.w2 l.c.w2 l.d.w2) (unqrWord l.a.w3 l.b.w3 l.c.w3 l.d.w3)

theorem unqrLane_qrLane (l : Lane) : unqrLane (qrLane l) = l := by
  simp only [unqrLane, qrLane, laneOfWords, unqrWord_qrWord]

theorem qrLane_unqrLane (l : Lane) : qrLane (unqrLane l) = l := by
  simp only [unqrLane, qrLane, laneOfWords, qrWord_unqrWord]

/-- Settles O32: the inverse undoes the assignments word position by word position. -/
theorem quarterRoundIsBijection : Obligations.QuarterRoundIsBijection :=
  Function.bijective_iff_has_inverse.2 ⟨unqrLane, unqrLane_qrLane, qrLane_unqrLane⟩

/-! The double round (R107). -/

theorem vword_qrLane (l : Lane) (i : Nat) :
    ({ a := vword (qrLane l).a i, b := vword (qrLane l).b i, c := vword (qrLane l).c i, d := vword (qrLane l).d i } :
      WordGroup) = qrWord (vword l.a i) (vword l.b i) (vword l.c i) (vword l.d i) :=
  vword_qrVectors l i

/-- `UNDIAG` puts column `i` on diagonal `i`. -/
theorem vword_undiagLane (l : Lane) (i : Nat) :
    vword (undiagLane l).a i = vword l.a i ∧ vword (undiagLane l).b (i + 1) = vword l.b i ∧
      vword (undiagLane l).c (i + 2) = vword l.c i ∧ vword (undiagLane l).d (i + 3) = vword l.d i := by
  simp only [undiagLane, vword_rotw]
  exact ⟨trivial, vword_congr _ (by omega), vword_congr _ (by omega), vword_congr _ (by omega)⟩

/-- Settles O33: the middle lane group is the one after the first quarter round. -/
theorem doubleRoundColumnsThenDiagonals : Obligations.DoubleRoundColumnsThenDiagonals := by
  refine fun l => ⟨qrLane l, fun i _ => vword_qrLane l i, fun i _ => ?_⟩
  obtain ⟨ha, hb, hc, hd⟩ := vword_undiagLane (qrLane (diagLane (qrLane l))) i
  rw [droundLane, ha, hb, hc, hd, vword_qrLane (diagLane (qrLane l))]
  simp only [diagLane, vword_rotw]

end Sys2Proof.Machine
end

section
/-! PROOFS. A block on the lane groups of a mask (41_lanes_and_block.md R127, R129). -/

namespace Sys2Proof.Machine

/-- A lane group after `LINIT`, `ROUNDS` and `FFADD`. -/
def blockLane (sg k0 k1 cn : V128) : Lane := ffaddLane (roundsLane 10 (initLane sg k0 k1 cn))

theorem roundsLane_saved (n : Nat) (l : Lane) :
    (roundsLane n l).sa = l.sa ∧ (roundsLane n l).sb = l.sb ∧ (roundsLane n l).sc = l.sc ∧ (roundsLane n l).sd = l.sd := by
  induction n generalizing l with
  | zero => exact ⟨rfl, rfl, rfl, rfl⟩
  | succ n ih => exact ih (droundLane l)

/-- The feed-forward adds the vectors the lane group was initialised from, so it leaves the keystream block. -/
theorem serLane_blockLane (sg k0 k1 cn : V128) : serLane (blockLane sg k0 k1 cn) = ksblock sg k0 k1 cn := by
  obtain ⟨ha, hb, hc, hd⟩ := roundsLane_saved 10 (initLane sg k0 k1 cn)
  simp only [serLane, blockLane, ffaddLane, ksblock]
  rw [ha, hb, hc, hd]
  rfl

theorem execList_block (lm : LaneMask) (s : State) :
    execList (.linit lm :: roundsOps lm ++ [.ffadd lm]) s =
      .next (mapLanes lm (fun k _ => blockLane s.sigma s.k0 s.k1 (counterVec s.cn k)) s) := by
  rw [List.cons_append, execList_cons, exec_linit, andThen, execList_append, execList_roundsOps, andThen]
  simp only [execList, exec_ffadd, andThen, mapLanes_mapLanes, cnPlus_eq]
  rfl

/-- Settles O37: what the list makes of a lane group serialises to the keystream block of its counter. -/
theorem laneSerialisesToKeystream : Obligations.LaneSerialisesToKeystream := by
  refine fun lm s => ⟨_, execList_block lm s, mapLanes_frame lm _ s, fun k hk => ?_⟩
  have h3 : k < 3 := by cases lm <;> simp only [laneCount] at hk <;> omega
  rw [getLane_mapLanes lm _ s k h3, if_pos hk, serLane_blockLane]

/-- The memory after the slice at `off` is combined with a keystream block (R140). -/
def combineAt (m : Memory) (p : Placement) (off : Nat) (ks : List Byte) : Memory :=
  Memory.writeBytes m (p.outBase + off) (xorBytes (Memory.readBytes m (p.inBase + off) 64) ks)

theorem combineLane_mem_eq (k : Nat) (s : State) :
    (combineLane k s).mem = combineAt s.mem s.place (s.off + 64 * k) (serLane (getLane s k)) := by
  rw [combineLane_mem, sliceOff, combineAt]

theorem overLanes_l0_mem (s : State) :
    (overLanes .l0 combineLane s).mem = combineAt s.mem s.place s.off (serLane s.lane0) := combineLane_mem_eq 0 s

theorem overLanes_l012_mem (s : State) :
    (overLanes .l012 combineLane s).mem =
      combineAt (combineAt (combineAt s.mem s.place s.off (serLane s.lane0)) s.place (s.off + 64) (serLane s.lane1))
        s.place (s.off + 128) (serLane s.lane2) := by
  rw [overLanes_l012, combineLane_mem_eq 2, combineLane_mem_eq 1, combineLane_mem_eq 0]
  rfl

theorem block1Ops_eq : block1Ops = (.linit .l0 :: roundsOps .l0 ++ [.ffadd .l0]) ++ [.xorst .l0, .ctrinc] := by
  simp [block1Ops]

theorem block3Ops_eq :
    block3Ops = (.linit .l012 :: roundsOps .l012 ++ [.ffadd .l012]) ++ .xorst .l012 :: ctradd3Ops := by
  simp [block3Ops]

/-- A serial block: its slice is combined with the keystream block of `CN`, and the counter is one on. -/
theorem execList_block1Ops (s : State) :
    ∃ u, execList block1Ops s = .next u ∧ u.place = s.place ∧ u.sigma = s.sigma ∧ u.k0 = s.k0 ∧ u.k1 = s.k1 ∧
      u.cn = counterVec s.cn 1 ∧ u.mem = combineAt s.mem s.place s.off (ksblock s.sigma s.k0 s.k1 s.cn) := by
  rw [block1Ops_eq, execList_append, execList_block, andThen]
  rw [execList_cons, exec_xorst, andThen, execList_cons, exec_ctrinc_eq, andThen]
  refine ⟨_, rfl, ?_⟩
  rw [incrementCn_place, incrementCn_sigma, incrementCn_k0, incrementCn_k1, incrementCn_cn, incrementCn_mem,
    overLanes_l0_mem, overLanes_combineLane_place, overLanes_combineLane_sigma, overLanes_combineLane_k0,
    overLanes_combineLane_k1, overLanes_combineLane_cn, mapLanes_place, mapLanes_sigma, mapLanes_k0, mapLanes_k1,
    mapLanes_cn, mapLanes_mem, mapLanes_off, mapLanes_lane0, serLane_blockLane, counterVec_zero]
  exact ⟨rfl, rfl, rfl, rfl, rfl, rfl⟩

/-- A multi-lane group: three slices are combined one after the other, and the counter is three on. -/
theorem execList_block3Ops (s : State) :
    ∃ t, execList block3Ops s = .next t ∧ t.cn = counterVec s.cn 3 ∧
      t.mem = combineAt (combineAt (combineAt s.mem s.place s.off (ksblock s.sigma s.k0 s.k1 s.cn)) s.place (s.off + 64)
        (ksblock s.sigma s.k0 s.k1 (counterVec s.cn 1))) s.place (s.off + 128)
        (ksblock s.sigma s.k0 s.k1 (counterVec s.cn 2)) := by
  rw [block3Ops_eq, execList_append, execList_block, andThen, execList_cons, exec_xorst, andThen, execList_ctradd3Ops]
  refine ⟨_, rfl, by rw [cnPlus_eq, overLanes_combineLane_cn, mapLanes_cn], ?_⟩
  rw [overLanes_l012_mem, mapLanes_mem, mapLanes_place, mapLanes_off, mapLanes_lane0, mapLanes_lane1_l012,
    mapLanes_lane2_l012, serLane_blockLane, serLane_blockLane, serLane_blockLane, counterVec_zero]

/-- Settles O38: both ways the three slices are combined one after the other with the same keystream blocks. -/
theorem multiLaneEqualsThreeSerial : Obligations.MultiLaneEqualsThreeSerial := by
  intro s
  obtain ⟨t, ht, htcn, htm⟩ := execList_block3Ops s
  obtain ⟨u, hu, hup, husg, huk0, huk1, hucn, hum⟩ := execList_block1Ops s
  obtain ⟨v, hv, hvp, hvsg, hvk0, hvk1, hvcn, hvm⟩ := execList_block1Ops { u with off := s.off + 64 }
  obtain ⟨w, hw, -, -, -, -, hwcn, hwm⟩ := execList_block1Ops { v with off := s.off + 128 }
  refine ⟨t, u, v, w, ht, hu, hv, hw, ?_, ?_⟩
  · rw [htm, hwm, hvm, hum, hvp, hvsg, hvk0, hvk1, hvcn]
    simp only [hup, husg, huk0, huk1, hucn, counterVec_add]
  · rw [htcn, hwcn, hvcn]
    simp only [hucn, counterVec_add]

end Sys2Proof.Machine
end

section
/-! PROOFS. The host's side (60_exceptions.md R213, 70_reset_and_hazards.md R230): reset, the host's moves, the codes of the
phases, and where an instruction is laid to be fetched. -/

namespace Sys2Proof.Machine

/-- The free bytes of a reset stand in the first `n` bytes of `OUT`. -/
theorem read_freeOut (s : State) (n : Nat) {a : Nat} (ha : ¬ (s.place.outBase ≤ a ∧ a < s.place.outBase + n)) :
    Memory.read (freeOut s n) a = Memory.read s.mem a := by
  induction n with
  | zero => rfl
  | succ n ih => rw [freeOut, Memory.read_write_other (by omega), ih (by omega)]

theorem wf_freeOut {s : State} (h : Memory.wf s.mem = true) (n : Nat) : Memory.wf (freeOut s n) = true := by
  induction n with
  | zero => exact h
  | succ n ih => exact Memory.wf_write ih _ _

theorem hostReset_mem (s : State) : (hostReset s).mem = if busy s then freeOut s s.place.outSize else s.mem := rfl

/-- Settles O42: a reset writes memory only in `OUT`, and only when a `GEN` was running. -/
theorem resetDuringRun : Obligations.ResetDuringRun := by
  refine fun s => ⟨rfl, rfl, rfl, rfl, rfl, fun hb => ?_, fun a ha => ?_, fun hm => ?_⟩
  · rw [hostReset_mem, hb]
    rfl
  · rw [hostReset_mem]
    split
    · exact read_freeOut s _ ha
    · rfl
  · rw [hostReset_mem]
    split
    · exact wf_freeOut hm _
    · exact hm

/-- Settles O43: each move is guarded by `BUSY`. -/
theorem hostMovesOnlyWhenIdle : Obligations.HostMovesOnlyWhenIdle := by
  refine fun s c p sp off n v => ⟨fun hb => ?_, fun hb => ?_⟩
  · exact ⟨if_pos hb, if_pos hb, if_pos hb, if_pos hb⟩
  · have hb : ¬ busy s = true := by simp [hb]
    exact ⟨if_neg hb, if_neg hb, if_neg hb, if_neg hb⟩

theorem busy_iff_phRegister (s : State) : busy s = true ↔ phRegister s ≠ 0 := by
  have hcode : phRegister s = phaseCode .idle ↔ s.ph = .idle := phaseCode_inj
  rw [busy, bne_iff_ne]
  exact not_congr hcode.symm

/-- Settles O60: the codes tell the phases apart, and 0 is that of `IDLE`. -/
theorem phaseCodes : Obligations.PhaseCodes :=
  ⟨rfl, rfl, rfl, rfl, rfl, rfl, rfl, rfl, phaseOfCode_eq_some, fun s => ⟨rfl, busy_iff_phRegister s⟩, rfl⟩

/-! Where an instruction is laid (log 14). -/

theorem maskOf_laneCount (lm : LaneMask) : maskOf (laneCount lm) = lm := by cases lm <;> rfl

theorem laneCount_pos (lm : LaneMask) : 1 ≤ laneCount lm := by cases lm <;> decide

/-- The position laid for a micro-operation is one of R179. -/
theorem reachable_positionFor (i : Instr) (s : State) : ReachablePosition (positionFor i s) := by
  cases i with
  | gen n => trivial
  | ldws | ctrwr => rfl
  | linit lm | qr lm | diag lm | undiag lm | ffadd lm | xorst lm =>
    simp [positionFor, ReachablePosition, laneCount_pos]
  | ctrinc => simp [positionFor, ReachablePosition]

/-- At the position laid for a lane micro-operation the mask of `REM` is the operation's. -/
theorem fetch_positionFor {i : Instr} (hi : i.format = .u) (s : State) : fetch (positionFor i s) = .microOp i := by
  have hr := reachable_positionFor i s
  cases i with
  | gen n => cases hi
  | ldws => exact fetch_load rfl hr
  | linit lm => exact (fetch_init rfl hr).trans (congrArg (Fetched.microOp ∘ Instr.linit) (maskOf_laneCount lm))
  | qr lm => exact (fetch_round rfl hr).trans (congrArg (Fetched.microOp ∘ Instr.qr) (maskOf_laneCount lm))
  | diag lm => exact (fetch_round rfl hr).trans (congrArg (Fetched.microOp ∘ Instr.diag) (maskOf_laneCount lm))
  | undiag lm => exact (fetch_round rfl hr).trans (congrArg (Fetched.microOp ∘ Instr.undiag) (maskOf_laneCount lm))
  | ffadd lm => exact (fetch_emit rfl hr).trans (congrArg (Fetched.microOp ∘ Instr.ffadd) (maskOf_laneCount lm))
  | xorst lm => exact (fetch_emit rfl hr).trans (congrArg (Fetched.microOp ∘ Instr.xorst) (maskOf_laneCount lm))
  | ctrinc => exact fetch_emit rfl hr
  | ctrwr => exact fetch_writeback rfl hr

theorem withFetchWord_of_microOp {i : Instr} (hi : i.format = .u) (s : State) :
    s.withFetchWord 8 (encode i) = positionFor i s := by
  have hd : decodeTableWord 8 (encode i) = some i := by simp [decodeTableWord, decodeU_encode hi]
  unfold State.withFetchWord
  rw [hd]
  cases i with
  | gen n => cases hi
  | ldws | ctrinc | ctrwr => rfl
  | linit lm | qr lm | diag lm | undiag lm | ffadd lm | xorst lm => rfl

theorem withFetchWord_gen (s : State) {n : Nat} (hn : n < 2 ^ 64) :
    s.withFetchWord 72 (encode (.gen n)) =
      { s with
        port := some (encode (.gen n)), ph := .idle, place := { s.place with inSize := 64 * n, outSize := 64 * n } } := by
  have hd : decodeTableWord 72 (encode (.gen n)) = some (.gen n) := by
    have := decodeCmd_encode_gen (cfg := Config.standard) hn
    simp [decodeTableWord, this, acceptedInstr]
  unfold State.withFetchWord
  rw [hd]

/-- Settles O39: a micro-operation is fetched at the position laid for it, a command from the port. -/
theorem fetchWordIsFetchedNext : Obligations.FetchWordIsFetchedNext := by
  refine ⟨fun i s hi => ?_, fun n s hcfg hn => ?_⟩
  · rw [withFetchWord_of_microOp hi]
    exact fetch_positionFor hi s
  · rw [withFetchWord_gen s hn]
    exact fetch_command rfl rfl (by rw [hcfg]; exact decodeCmd_encode_gen hn)

end Sys2Proof.Machine
end

section
/-! PROOFS. The function of `GEN n` (43_sequencer.md R160), byte by byte. -/

namespace Sys2Proof.Machine

/-- A byte of the memory with the output blocks in place: inside them input xor keystream, elsewhere as it was. -/
theorem read_genBlocks (s : State) (n a : Nat) :
    Memory.read (genBlocks s n) a =
      if s.place.outBase ≤ a ∧ a < s.place.outBase + 64 * n then
        Memory.read s.mem (s.place.inBase + (a - s.place.outBase)) ^^^
          (keystreamBlock s ((a - s.place.outBase) / 64)).getD ((a - s.place.outBase) % 64) 0
      else Memory.read s.mem a := by
  induction n with
  | zero => rw [if_neg (by omega)]; rfl
  | succ n ih =>
    rw [genBlocks, Memory.read_writeBytes, xorBytes_length, memRead, Memory.readBytes_length, keystreamBlock_length,
      Nat.min_self, ih]
    by_cases hlast : s.place.outBase + 64 * n ≤ a ∧ a < s.place.outBase + 64 * n + 64
    · have hoff : a - (s.place.outBase + 64 * n) < 64 := by omega
      have hsrc : spaceBase s.place .inp + 64 * n + (a - (s.place.outBase + 64 * n)) =
          s.place.inBase + (a - s.place.outBase) := by
        show s.place.inBase + 64 * n + (a - (s.place.outBase + 64 * n)) = _
        omega
      have hblock : (a - s.place.outBase) / 64 = n := by omega
      have hbyte : (a - s.place.outBase) % 64 = a - (s.place.outBase + 64 * n) := by omega
      rw [if_pos hlast, if_pos (by omega), xorBytes_getD _ _ _ (by simpa using hoff) (by simpa using hoff),
        Memory.readBytes_getD _ _ _ _ hoff, hsrc, hblock, hbyte]
    · rw [if_neg hlast]
      by_cases hin : s.place.outBase ≤ a ∧ a < s.place.outBase + 64 * n
      · rw [if_pos hin, if_pos (by omega)]
      · rw [if_neg hin, if_neg (by omega)]

theorem read_genBlocks_other (s : State) {n a : Nat} (h : ¬ (s.place.outBase ≤ a ∧ a < s.place.outBase + 64 * n)) :
    Memory.read (genBlocks s n) a = Memory.read s.mem a := by
  rw [read_genBlocks, if_neg h]

theorem read_genBlocks_block (s : State) {n i j : Nat} (hi : i < n) (hj : j < 64) :
    Memory.read (genBlocks s n) (s.place.outBase + 64 * i + j) =
      Memory.read s.mem (s.place.inBase + 64 * i + j) ^^^ (keystreamBlock s i).getD j 0 := by
  have hsub : s.place.outBase + 64 * i + j - s.place.outBase = 64 * i + j := by omega
  have hblock : (64 * i + j) / 64 = i := by omega
  have hbyte : (64 * i + j) % 64 = j := by omega
  rw [read_genBlocks, if_pos (by omega), hsub, hblock, hbyte, Nat.add_assoc]

/-- The counter and nonce that `WS` holds, as a vector (10_state.md R15). -/
def storedCn (s : State) : V128 := bytesVec (memRead s .ws 32 16)

theorem read_genMemory (s : State) (n a : Nat) :
    Memory.read (genMemory s n) a =
      if s.place.wsBase + 32 ≤ a ∧ a < s.place.wsBase + 40 then
        (vecBytes (counterVec (storedCn s) n)).getD (a - (s.place.wsBase + 32)) 0
      else Memory.read (genBlocks s n) a := by
  have hlen : ((vecBytes (counterVec (bytesVec (memRead s .ws 32 16)) n)).take 8).length = 8 := rfl
  rw [genMemory, Memory.read_writeBytes, hlen]
  by_cases h : s.place.wsBase + 32 ≤ a ∧ a < s.place.wsBase + 40
  · rw [if_pos h, if_pos h, List.getD_eq_getElem?_getD, List.getElem?_take_of_lt (by omega), ← List.getD_eq_getElem?_getD]
    rfl
  · rw [if_neg h, if_neg h]

/-- The bytes of `CN` in `WS`. -/
theorem vecBytes_storedCn_getD (s : State) {j : Nat} (hj : j < 16) :
    (vecBytes (storedCn s)).getD j 0 = Memory.read s.mem (s.place.wsBase + 32 + j) := by
  rw [storedCn, vecBytes_bytesVec_getD _ hj, memRead, Memory.readBytes_getD _ _ _ _ hj]
  rfl

/-- The counter and nonce read back after `GEN n`: the counter is `n` on. -/
theorem readBack_genMemory {s : State} {n : Nat} (h : PlacementOk s.place n) :
    bytesVec (Memory.readBytes (genMemory s n) (s.place.wsBase + 32) 16) = counterVec (storedCn s) n := by
  obtain ⟨-, -, -, hws, -⟩ := h
  have hbytes : Memory.readBytes (genMemory s n) (s.place.wsBase + 32) 16 = vecBytes (counterVec (storedCn s) n) := by
    refine List.ext_getElem (by simp) fun j hj hj' => ?_
    rw [vecBytes_length] at hj'
    rw [← List.getD_eq_getElem _ 0, ← List.getD_eq_getElem _ 0, Memory.readBytes_getD _ _ _ _ hj', read_genMemory]
    split
    · rw [Nat.add_sub_cancel_left]
    · rw [read_genBlocks_other s (by omega), ← vecBytes_storedCn_getD s hj']
      exact vecBytes_getD_of_q1 (q1_counterVec _ n).symm (by omega) hj'
  rw [hbytes, bytesVec_vecBytes]

/-- Settles O56: the blocks and the counter's eight bytes share no byte. -/
theorem genFunctionBytes : Obligations.GenFunctionBytes := by
  intro s n h
  refine ⟨fun i j hi hj => ?_, ?_, fun a hout hctr => ?_⟩
  · obtain ⟨-, -, -, hws, -⟩ := h
    rw [read_genMemory, if_neg (by omega), read_genBlocks_block s hi hj]
  · rw [readBack_genMemory h, ← cnPlus_eq, q0_cnPlus_toNat]
    rfl
  · rw [read_genMemory, if_neg hctr, read_genBlocks_other s hout]

/-- The keystream depends on `CONST` and `WS` alone. -/
theorem keystreamBlock_congr {s u : State} (hconst : memRead u .const 0 16 = memRead s .const 0 16)
    (hws : ∀ o n, o + n ≤ 48 → memRead u .ws o n = memRead s .ws o n) (i : Nat) :
    keystreamBlock u i = keystreamBlock s i := by
  simp only [keystreamBlock, hconst, hws 0 16 (by omega), hws 16 16 (by omega), hws 32 16 (by omega)]

/-- A memory with output blocks in place holds `CONST`, `WS` and `INC` as they were. -/
theorem memRead_of_genBlocks {s u : State} {n j : Nat} (hpl : PlacementOk s.place n) (hj : j ≤ n) (hu : u.place = s.place)
    (hmem : ∀ a, Memory.read u.mem a = Memory.read (genBlocks s j) a) :
    memRead u .const 0 16 = memRead s .const 0 16 ∧ (∀ o m, o + m ≤ 48 → memRead u .ws o m = memRead s .ws o m) ∧
      memRead u .inc 0 16 = memRead s .inc 0 16 := by
  obtain ⟨-, -, -, hws, hconst, hinc, -⟩ := hpl
  have outside : ∀ base off m, (∀ a, base + off ≤ a → a < base + off + m →
      ¬ (s.place.outBase ≤ a ∧ a < s.place.outBase + 64 * j)) →
      Memory.readBytes u.mem (base + off) m = Memory.readBytes s.mem (base + off) m := fun base off m h =>
    Memory.readBytes_congr fun a h1 h2 => (hmem a).trans (read_genBlocks_other s (h a h1 h2))
  simp only [memRead, hu, spaceBase]
  refine ⟨outside _ 0 16 ?_, fun o m hom => outside _ o m ?_, outside _ 0 16 ?_⟩ <;>
  · intro a h1 h2
    omega

end Sys2Proof.Machine
end

section
/-! PROOFS. Whole runs (43_sequencer.md R178, R180): how many steps are left at a position, and what memory and the lane groups hold
there, as an invariant of the running step. -/

namespace Sys2Proof.Machine

/-! The steps left. -/

/-- The steps of the groups of `rem` blocks: 46 for three blocks, 44 for one. -/
def groupsLength (rem : Nat) : Nat := 46 * (rem / 3) + 44 * (rem % 3)

theorem groupsLength_group {rem : Nat} (h : 1 ≤ rem) :
    groupsLength rem = 43 + groupSize rem + groupsLength (rem - groupSize rem) := by
  unfold groupsLength groupSize
  split <;> omega

/-- The steps left until the run is complete, read off the position and `REM`. -/
def stepsLeft (s : State) : Nat :=
  match s.ph with
  | .idle => 0
  | .load => 2 + groupsLength s.rem
  | .init => 1 + groupsLength s.rem
  | .round => groupsLength s.rem - (4 * (10 - s.rc.toNat) + s.sub.toNat)
  | .emit => groupsLength s.rem - (40 + s.sub.toNat)
  | .writeback => 1

theorem stepsLeft_round {s : State} (h : s.ph = .round) :
    stepsLeft s = groupsLength s.rem - (4 * (10 - s.rc.toNat) + s.sub.toNat) := by rw [stepsLeft, h]

theorem stepsLeft_emit {s : State} (h : s.ph = .emit) : stepsLeft s = groupsLength s.rem - (40 + s.sub.toNat) := by
  rw [stepsLeft, h]

theorem stepsLeft_dispatch (s : State) : stepsLeft (dispatch s) = 1 + groupsLength s.rem := by
  unfold dispatch
  split
  · rfl
  · have h0 : s.rem = 0 := by omega
    rw [h0]
    rfl

theorem stepsLeft_advanceRound {s : State} (hp : s.ph = .round) (h1 : 1 ≤ s.rc.toNat) (h10 : s.rc.toNat ≤ 10)
    (hsub : s.sub.toNat ≤ 3) (hrem : 1 ≤ s.rem) : stepsLeft (advanceRound s) + 1 = stepsLeft s := by
  have hlen := groupsLength_group hrem
  rw [stepsLeft_round hp, advanceRound_eq]
  split
  · rw [stepsLeft_round rfl, setPos_rem, setPos_rc, setPos_sub, toNat_sub_add_one (by omega)]
    omega
  · split
    · next hrc =>
      rw [stepsLeft_emit rfl, setPos_rem, setPos_sub, hrc]
      simp
      omega
    · next hrc =>
      have : s.rc.toNat ≠ 1 := fun h => hrc (BitVec.eq_of_toNat_eq h)
      rw [stepsLeft_round rfl, setPos_rem, setPos_rc, setPos_sub, toNat_rc_sub_one h1]
      simp
      omega

/-- A running step is one step less to go. -/
theorem stepsLeft_runningStep {s t : State} (hc : ControlOk s) (h : RunningStep s t) : stepsLeft t + 1 = stepsLeft s := by
  obtain ⟨hw, -, -⟩ := hc
  cases h with
  | load hp hsub hinc =>
    rw [stepsLeft_dispatch, stepsLeft, hp]
    show 1 + groupsLength s.rem + 1 = 2 + groupsLength s.rem
    omega
  | init hp hsub hrem =>
    rw [stepsLeft_round rfl, stepsLeft, hp]
    simp [initLanes]
    omega
  | round hp h1 h10 hsub hrem =>
    have h := stepsLeft_advanceRound (s := mapLanes (maskOf s.rem) (fun _ l => roundLane s.sub.toNat l) s)
      (by simpa using hp) (by simpa using h1) (by simpa using h10) (by simpa using hsub) (by simpa using hrem)
    rw [h, stepsLeft_round (by simpa using hp), stepsLeft_round hp]
    simp
  | feedForward hp hrc hrem hsub =>
    have hlen := groupsLength_group hrem
    rw [stepsLeft_emit rfl, stepsLeft_emit hp, hsub, setPos_rem, mapLanes_rem]
    simp
    omega
  | combine hp hrc hrem hsub =>
    have hlen := groupsLength_group hrem
    rw [stepsLeft_emit rfl, stepsLeft_emit hp, hsub, setPos_rem, overLanes_combineLane_rem]
    simp
    omega
  | increment hp hrc hrem h2 hsub =>
    have hlen := groupsLength_group hrem
    have h3 := groupSize_le_three s.rem
    rw [stepsLeft_emit rfl, stepsLeft_emit hp, setPos_rem, setPos_sub, toNat_sub_add_one (by omega), incrementCn_rem]
    omega
  | count hp hrc hrem hsub =>
    have hlen := groupsLength_group hrem
    rw [stepsLeft_dispatch, stepsLeft_emit hp, countGroup_rem, incrementCn_rem, incrementCn_cfg,
      Nat.mod_eq_of_lt (by omega), hsub]
    omega
  | writeback hp hsub =>
    rw [stepsLeft, stepsLeft, hp, complete_ph]

theorem stepsLeft_pos_iff {s : State} (hc : ControlOk s) : 0 < stepsLeft s ↔ s.ph ≠ .idle := by
  obtain ⟨-, -, hr⟩ := hc
  cases hp : s.ph with
  | idle => simp [stepsLeft, hp]
  | load | init | writeback => simp [stepsLeft, hp]
  | round =>
    simp only [ReachablePosition, hp] at hr
    obtain ⟨h1, h10, hsub, hrem⟩ := hr
    have hlen := groupsLength_group hrem
    simp [stepsLeft_round hp]
    omega
  | emit =>
    obtain ⟨-, hsub, hrem⟩ := (reachable_emit_iff hp).1 hr
    have hlen := groupsLength_group hrem
    simp [stepsLeft_emit hp]
    omega

/-! Running the machine. -/

theorem run_zero (s : State) : Host.Core.run core 0 s = .next s := rfl

theorem run_succ_of_step {s t : State} (k : Nat) (h : step s = .next t) :
    Host.Core.run core (k + 1) s = Host.Core.run core k t := by
  have hc : core.step s = .next t := h
  simp only [Host.Core.run, hc]

/-- A run of at least one step that answers a next state takes that step. -/
theorem step_of_run_succ {s t : State} {k : Nat} (h : Host.Core.run core (k + 1) s = .next t) : ∃ u, step s = .next u := by
  cases hs : step s with
  | next u => exact ⟨u, rfl⟩
  | fault r =>
    have hc : core.step s = .fault r := hs
    simp [Host.Core.run, hc] at h
  | refused r =>
    have hc : core.step s = .refused r := hs
    simp [Host.Core.run, hc] at h

/-- An invariant of the running steps that makes them go on holds until no step is left. -/
theorem run_of_invariant {P : State → Prop} (hcontrol : ∀ s, P s → ControlOk s)
    (hstep : ∀ s, s.ph ≠ .idle → P s → ∃ t, step s = .next t ∧ P t) {s : State} (hs : P s) {j : Nat}
    (hj : j ≤ stepsLeft s) : ∃ u, Host.Core.run core j s = .next u ∧ P u ∧ stepsLeft u + j = stepsLeft s := by
  induction j generalizing s with
  | zero => exact ⟨s, rfl, hs, rfl⟩
  | succ j ih =>
    have hp : s.ph ≠ .idle := (stepsLeft_pos_iff (hcontrol s hs)).1 (by omega)
    obtain ⟨t, ht, hPt⟩ := hstep s hp hs
    have hleft := stepsLeft_runningStep (hcontrol s hs) ((step_eq_next_iff hp).1 ht)
    obtain ⟨u, hu, hPu, hlu⟩ := ih hPt (by omega)
    exact ⟨u, by rw [run_succ_of_step j ht, hu], hPu, by omega⟩

/-! What memory and the lane groups hold. -/

/-- What the double rounds still to be done at the position make of a lane group. -/
def restOfRounds (rc sub : Nat) (l : Lane) : Lane :=
  match sub with
  | 0 => roundsLane rc l
  | 1 => roundsLane (rc - 1) (undiagLane (qrLane (diagLane l)))
  | 2 => roundsLane (rc - 1) (undiagLane (qrLane l))
  | _ => roundsLane (rc - 1) (undiagLane l)

theorem restOfRounds_step {rc sub : Nat} (hrc : 1 ≤ rc) (hsub : sub < 3) (l : Lane) :
    restOfRounds rc (sub + 1) (roundLane sub l) = restOfRounds rc sub l := by
  obtain ⟨n, rfl⟩ := Nat.exists_eq_add_of_le' hrc
  match sub, hsub with
  | 0, _ | 1, _ | 2, _ => rfl

/-- A lane group as it will be combined, from what it holds at the position. -/
def pendingLane (s : State) (l : Lane) : Lane :=
  if s.ph = .round then ffaddLane (restOfRounds s.rc.toNat s.sub.toNat l)
  else if s.sub = 0 then ffaddLane l else l

/-- Output blocks in memory at the position, in a run of `n`. -/
def blocksStored (n : Nat) (s : State) : Nat :=
  n - s.rem + if s.ph = .emit ∧ 2 ≤ s.sub.toNat then groupSize s.rem else 0

theorem blocksStored_of_not {n : Nat} {s : State} (h : ¬ (s.ph = .emit ∧ 2 ≤ s.sub.toNat)) :
    blocksStored n s = n - s.rem := by rw [blocksStored, if_neg h, Nat.add_zero]

theorem blocksStored_of {n : Nat} {s : State} (h : s.ph = .emit ∧ 2 ≤ s.sub.toNat) :
    blocksStored n s = n - s.rem + groupSize s.rem := by rw [blocksStored, if_pos h]

theorem blocksStored_dispatch (n : Nat) (s : State) : blocksStored n (dispatch s) = n - s.rem := by
  rw [blocksStored_of_not (by simp), dispatch_rem]

theorem blocksStored_advanceRound (n : Nat) (s : State) : blocksStored n (advanceRound s) = n - s.rem := by
  rw [advanceRound_eq]
  split
  · rw [blocksStored_of_not (by simp), setPos_rem]
  · split <;> rw [blocksStored_of_not (by simp), setPos_rem]

/-- The state `u` is one of the run of `GEN n` from `s`: the invariants of every run, what memory holds, and what the lane
groups will be combined as. -/
structure InRun (s : State) (n : Nat) (u : State) : Prop where
  control : ControlOk u
  contract : RunOk u
  loaded : LoadedOk u
  cfg : u.cfg = s.cfg
  place : u.place = s.place
  port : u.port = none
  stored : u.ph ≠ .idle → ∀ a, Memory.read u.mem a = Memory.read (genBlocks s (blocksStored n u)) a
  lanes : (u.ph = .round ∨ (u.ph = .emit ∧ u.sub.toNat ≤ 1)) → ∀ k, k < groupSize u.rem →
    serLane (pendingLane u (getLane u k)) = keystreamBlock s (n - u.rem + k)
  finished : u.ph = .idle → u.done = true ∧ ∀ a, Memory.read u.mem a = Memory.read (genMemory s n) a

section
variable {s u t : State} {n : Nat}

/-- The counts of `RunOk`, for the `n` that the sizes of the buffers tell. -/
theorem InRun.counts (hpl : PlacementOk s.place n) (h : InRun s n u) (hp : u.ph ≠ .idle) :
    u.rem ≤ n ∧ u.off = 64 * (n - u.rem) ∧ (u.ph = .load → u.rem = n) ∧ (u.ph = .writeback → u.rem = 0) := by
  obtain ⟨m, -, ⟨⟨hm, -⟩, -⟩, hcounts⟩ := h.contract hp
  obtain ⟨hn, -⟩ := hpl
  rw [h.place] at hm
  obtain rfl : m = n := by omega
  exact hcounts

theorem InRun.blocksStored_le (hpl : PlacementOk s.place n) (h : InRun s n u) (hp : u.ph ≠ .idle) :
    blocksStored n u ≤ n := by
  obtain ⟨hle, -⟩ := h.counts hpl hp
  obtain ⟨-, -, hr⟩ := h.control
  by_cases hs : u.ph = .emit ∧ 2 ≤ u.sub.toNat
  · obtain ⟨-, -, hrem⟩ := (reachable_emit_iff hs.1).1 hr
    have := groupSize_le hrem
    rw [blocksStored_of hs]
    omega
  · rw [blocksStored_of_not hs]
    omega

/-- Past `LOAD` the registers are those that `s` loads, with the blocks counted. -/
theorem InRun.registers (hpl : PlacementOk s.place n) (h : InRun s n u) (hp : u.ph ≠ .idle) (hload : u.ph ≠ .load) :
    u.sigma = bytesVec (memRead s .const 0 16) ∧ u.k0 = bytesVec (memRead s .ws 0 16) ∧
      u.k1 = bytesVec (memRead s .ws 16 16) ∧ u.cn = counterVec (storedCn s) (blocksCounted u) := by
  obtain ⟨hconst, hws, -⟩ := memRead_of_genBlocks hpl (h.blocksStored_le hpl hp) h.place (h.stored hp)
  obtain ⟨hsg, hk0, hk1, hq1, hq0⟩ := h.loaded hp hload
  rw [hws 32 16 (by omega)] at hq0 hq1
  refine ⟨hconst ▸ hsg, hws 0 16 (by omega) ▸ hk0, hws 16 16 (by omega) ▸ hk1, vec_eq_of_q ?_ ?_⟩
  · rw [hq0, q0_counterVec]; rfl
  · rw [hq1, q1_counterVec]; rfl

/-- What `LINIT` starts in lane group `k` ends in the keystream block `k` on from the blocks counted. -/
theorem InRun.ksblock_eq (hpl : PlacementOk s.place n) (h : InRun s n u) (hp : u.ph ≠ .idle) (hload : u.ph ≠ .load)
    (k : Nat) : ksblock u.sigma u.k0 u.k1 (counterVec u.cn k) = keystreamBlock s (blocksCounted u + k) := by
  obtain ⟨hsg, hk0, hk1, hcn⟩ := h.registers hpl hp hload
  rw [hsg, hk0, hk1, hcn, counterVec_add]
  rfl

/-- Combining the group after `j` blocks puts the blocks of the group in place (42_combine_and_counter.md R140). -/
theorem read_combine_group {lm : LaneMask} {j : Nat} (hpl : PlacementOk s.place n) (hj : j + laneCount lm ≤ n)
    (hplace : u.place = s.place) (hoff : u.off = 64 * j)
    (hmem : ∀ a, Memory.read u.mem a = Memory.read (genBlocks s j) a)
    (hks : ∀ k, k < laneCount lm → serLane (getLane u k) = keystreamBlock s (j + k)) (a : Nat) :
    Memory.read (overLanes lm combineLane u).mem a = Memory.read (genBlocks s (j + laneCount lm)) a := by
  obtain ⟨-, -, hbuf, -⟩ := hpl
  by_cases ha : s.place.outBase + 64 * j ≤ a ∧ a < s.place.outBase + 64 * j + 64 * laneCount lm
  · obtain ⟨k, b, hk, hb, rfl⟩ : ∃ k b, k < laneCount lm ∧ b < 64 ∧ a = s.place.outBase + 64 * j + 64 * k + b :=
      ⟨(a - (s.place.outBase + 64 * j)) / 64, (a - (s.place.outBase + 64 * j)) % 64, by omega, by omega, by omega⟩
    have hslice := read_overLanes_combineLane_slice (lm := lm) (s := u) (by rw [hplace, hoff]; omega) hk hb
    have hblock := read_genBlocks_block s (n := j + laneCount lm) (i := j + k) (by omega) hb
    rw [hplace, hoff, hks k hk, hmem, read_genBlocks_other s (by omega)] at hslice
    rw [hslice, show s.place.outBase + 64 * j + 64 * k + b = s.place.outBase + 64 * (j + k) + b by omega, hblock,
      show s.place.inBase + 64 * j + 64 * k + b = s.place.inBase + 64 * (j + k) + b by omega]
  · rw [read_overLanes_combineLane_other lm u (by rw [hplace, hoff]; omega), hmem, read_genBlocks, read_genBlocks]
    by_cases hin : s.place.outBase ≤ a ∧ a < s.place.outBase + 64 * j
    · rw [if_pos hin, if_pos (by omega)]
    · rw [if_neg hin, if_neg (by omega)]

/-- The memory of a running state of the run after one more step. -/
theorem InRun.stored_step (hpl : PlacementOk s.place n) (h : InRun s n u) (hs : RunningStep u t) (ht : t.ph ≠ .idle)
    (a : Nat) :
    Memory.read t.mem a = Memory.read (genBlocks s (blocksStored n t)) a := by
  have keeps : u.ph ≠ .idle → t.mem = u.mem → blocksStored n t = blocksStored n u →
      Memory.read t.mem a = Memory.read (genBlocks s (blocksStored n t)) a :=
    fun hp hm hb => by rw [hm, hb]; exact h.stored hp a
  cases hs with
  | load hp hsub hinc =>
    refine keeps (by simp [hp]) (dispatch_mem _) ?_
    rw [blocksStored_dispatch, blocksStored_of_not (by simp [hp])]
    rfl
  | init hp hsub hrem =>
    refine keeps (by simp [hp]) (mapLanes_mem _ _ _) ?_
    rw [blocksStored_of_not (by simp), blocksStored_of_not (by simp [hp]), setPos_rem, initLanes, mapLanes_rem]
  | round hp h1 h10 hsub hrem =>
    refine keeps (by simp [hp]) (by simp) ?_
    rw [blocksStored_advanceRound, blocksStored_of_not (by simp [hp]), mapLanes_rem]
  | feedForward hp hrc hrem hsub =>
    refine keeps (by simp [hp]) (mapLanes_mem _ _ _) ?_
    rw [blocksStored_of_not (by simp), blocksStored_of_not (by simp [hsub]), setPos_rem, mapLanes_rem]
  | combine hp hrc hrem hsub =>
    have hrun : u.ph ≠ .idle := by simp [hp]
    obtain ⟨hle, hoff, -⟩ := h.counts hpl hrun
    have hg := groupSize_le hrem
    have hstored := h.stored hrun
    rw [blocksStored_of_not (by simp [hsub])] at hstored
    have hlanes := h.lanes (.inr ⟨hp, by simp [hsub]⟩)
    simp only [pendingLane, hp, hsub, reduceCtorEq, if_false] at hlanes
    rw [blocksStored_of ⟨rfl, by simp⟩, setPos_rem, overLanes_combineLane_rem, ← laneCount_maskOf]
    refine read_combine_group hpl (by rw [laneCount_maskOf]; omega) h.place hoff hstored (fun k hk => ?_) a
    rw [laneCount_maskOf] at hk
    exact hlanes k hk
  | increment hp hrc hrem h2 hsub =>
    have h3 := groupSize_le_three u.rem
    refine keeps (by simp [hp]) rfl ?_
    rw [blocksStored_of ⟨rfl, by rw [setPos_sub, toNat_sub_add_one (by omega)]; omega⟩, blocksStored_of ⟨hp, h2⟩]
    rfl
  | count hp hrc hrem hsub =>
    obtain ⟨hle, -⟩ := h.counts hpl (by simp [hp])
    obtain ⟨hw, -, -⟩ := h.control
    have hg := groupSize_le hrem
    have hpos := groupSize_pos u.rem
    refine keeps (by simp [hp]) (dispatch_mem _) ?_
    rw [blocksStored_dispatch, blocksStored_of ⟨hp, by omega⟩, countGroup_rem, incrementCn_rem, incrementCn_cfg,
      Nat.mod_eq_of_lt (by omega)]
    omega
  | writeback hp hsub => exact absurd rfl ht

end
end Sys2Proof.Machine
end

section
/-! PROOFS. Whole runs (43_sequencer.md R170, R178, R180): the run keeps `InRun` from the acceptance to the last step, and what follows
from it of one run and of two. -/

namespace Sys2Proof.Machine

section
variable {s u t : State} {n : Nat}

/-- A sub-step of `ROUND` leaves what the lane group will be combined as. -/
theorem pendingLane_advanceRound {v : State} (h1 : 1 ≤ v.rc.toNat) (hsub : v.sub.toNat ≤ 3) (l : Lane) :
    pendingLane (advanceRound v) (roundLane v.sub.toNat l) = ffaddLane (restOfRounds v.rc.toNat v.sub.toNat l) := by
  rw [advanceRound_eq]
  split
  · next hlt =>
    rw [pendingLane, if_pos (setPos_ph _ _ _ _), setPos_rc, setPos_sub, toNat_sub_add_one (by omega),
      restOfRounds_step h1 hlt]
  · have h3 : v.sub.toNat = 3 := by omega
    rw [h3]
    split
    · next hrc =>
      rw [hrc, pendingLane, if_neg (by simp), if_pos (setPos_sub _ _ _ _)]
      rfl
    · rw [pendingLane, if_pos (setPos_ph _ _ _ _), setPos_rc, setPos_sub, toNat_rc_sub_one h1]
      rfl

/-- The lane groups of a running state of the run after one more step. -/
theorem InRun.lanes_step (hpl : PlacementOk s.place n) (h : InRun s n u) (hs : RunningStep u t)
    (ht : t.ph = .round ∨ (t.ph = .emit ∧ t.sub.toNat ≤ 1)) {k : Nat} (hk : k < groupSize t.rem) :
    serLane (pendingLane t (getLane t k)) = keystreamBlock s (n - t.rem + k) := by
  cases hs with
  | load hp hsub hinc => simp at ht
  | init hp hsub hrem =>
    have hrun : u.ph ≠ .idle := by simp [hp]
    obtain ⟨-, hoff, -⟩ := h.counts hpl hrun
    have hcounted : blocksCounted u = n - u.rem := by rw [blocksCounted_of_ne_emit (by simp [hp]), hoff]; omega
    rw [setPos_rem, initLanes, mapLanes_rem] at hk ⊢
    rw [getLane_setPos, getLane_mapLanes_maskOf _ _ hk, cnPlus_eq, ← hcounted,
      ← h.ksblock_eq hpl hrun (by simp [hp]), ← serLane_blockLane]
    rfl
  | round hp h1 h10 hsub hrem =>
    have hr : (advanceRound (mapLanes (maskOf u.rem) (fun _ l => roundLane u.sub.toNat l) u)).rem = u.rem := by
      rw [advanceRound_frame]; exact mapLanes_rem _ _ _
    rw [hr] at hk ⊢
    have hl := pendingLane_advanceRound (v := mapLanes (maskOf u.rem) (fun _ l => roundLane u.sub.toNat l) u)
      (by simpa using h1) (by simpa using hsub) (getLane u k)
    simp only [mapLanes_sub, mapLanes_rc] at hl
    rw [getLane_advanceRound, getLane_mapLanes_maskOf _ _ hk, hl, ← h.lanes (.inl hp) k hk, pendingLane, if_pos hp]
  | feedForward hp hrc hrem hsub =>
    rw [setPos_rem, mapLanes_rem] at hk ⊢
    have hl := h.lanes (.inr ⟨hp, by simp [hsub]⟩) k hk
    rw [pendingLane, if_neg (by simp [hp]), if_pos hsub] at hl
    rw [getLane_setPos, getLane_mapLanes_maskOf _ _ hk, pendingLane, if_neg (by simp), if_neg (by simp), hl]
  | combine hp hrc hrem hsub => simp at ht
  | increment hp hrc hrem h2 hsub =>
    have h3 := groupSize_le_three u.rem
    simp only [setPos_ph, setPos_sub, toNat_sub_add_one (show u.sub.toNat < 7 by omega), reduceCtorEq, false_or] at ht
    omega
  | count hp hrc hrem hsub => simp at ht
  | writeback hp hsub => simp at ht

/-- `CTRWR` ends the run with the memory of R160: the counter it stores is `n` on, and the nonce is the one it finds. -/
theorem InRun.read_writeback (hpl : PlacementOk s.place n) (h : InRun s n u) (hp : u.ph = .writeback) (a : Nat) :
    Memory.read (Memory.writeBytes u.mem (u.place.wsBase + 32) (vecBytes u.cn)) a = Memory.read (genMemory s n) a := by
  have hrun : u.ph ≠ .idle := by simp [hp]
  have hload : u.ph ≠ .load := by simp [hp]
  obtain ⟨-, hoff, -, hrem⟩ := h.counts hpl hrun
  have hcounted : blocksCounted u = n := by rw [blocksCounted_of_ne_emit (by simp [hp]), hoff, hrem hp]; omega
  obtain ⟨-, -, -, hcn⟩ := h.registers hpl hrun hload
  have hstored := h.stored hrun a
  rw [blocksStored_of_not (by simp [hp]), hrem hp, Nat.sub_zero] at hstored
  rw [read_genMemory]
  by_cases ha : s.place.wsBase + 32 ≤ a ∧ a < s.place.wsBase + 40
  · rw [if_pos ha, Memory.read_writeBytes, vecBytes_length, h.place, if_pos (by omega), hcn, hcounted]
  · obtain ⟨-, -, -, hq1, -⟩ := h.loaded hrun hload
    rw [if_neg ha, read_ctrwr_nonce hq1 (by rw [h.place]; exact ha), hstored]

/-- A running state of the run goes on to a state of the run. -/
theorem InRun.step (hpl : PlacementOk s.place n) (hp : u.ph ≠ .idle) (h : InRun s n u) :
    ∃ t, step u = .next t ∧ InRun s n t := by
  obtain ⟨-, -, ⟨-, hinc⟩, -⟩ := h.contract hp
  obtain ⟨-, -, hr⟩ := h.control
  obtain ⟨t, ht⟩ := runningStepAnswersNext u hp hr hinc
  have hs := (step_eq_next_iff hp).1 ht
  refine ⟨t, ht, {
    control := controlOk_runningStep h.control hs
    contract := runOk_runningStep hp h.contract hs
    loaded := loadedOk_runningStep hp h.contract h.loaded hs
    cfg := (runningStep_cfg_place hs).1.trans h.cfg
    place := (runningStep_cfg_place hs).2.trans h.place
    port := (step_port_of_running hp ht).trans h.port
    stored := h.stored_step hpl hs
    lanes := fun hl _ hk => h.lanes_step hpl hs hl hk
    finished := fun hidle => ?_ }⟩
  rcases runningStep_flags hs with ⟨-, hb⟩ | ⟨hwb, -, hdone⟩
  · exact absurd hidle hb
  refine ⟨hdone, fun a => ?_⟩
  cases hs with
  | writeback => exact h.read_writeback hpl hwb a
  | load hs | init hs | round hs | feedForward hs | combine hs | increment hs | count hs => simp [hwb] at hs

/-- The acceptance of a presented `GEN n` (R170). -/
theorem step_presentGen (hp : s.ph = .idle) (hn : n < 2 ^ s.cfg.bcw) (hk : Contract s n) :
    Machine.step (presentGen s n) = .next (acceptGen n (takeCommand (presentGen s n))) := by
  rw [step_of_command (fetch_command (s := presentGen s n) hp rfl (decodeCmd_encode_gen hn))]
  exact execGen_eq_next.2 ⟨hp, hk, rfl⟩

theorem inRun_accepted (hn : n < 2 ^ s.cfg.bcw) (hk : Contract s n) :
    InRun s n (acceptGen n (takeCommand (presentGen s n))) := by
  have hrem : (acceptGen n (takeCommand (presentGen s n))).rem = n := Nat.mod_eq_of_lt hn
  exact {
    control := ⟨Nat.mod_lt _ (Nat.two_pow_pos _), Nat.mod_lt _ (Nat.two_pow_pos _), rfl⟩
    contract := fun _ => ⟨n, hn, hk, le_of_eq hrem, by rw [hrem, acceptGen_off, Nat.zero_mod, Nat.sub_self],
      fun _ => hrem, nofun⟩
    loaded := fun _ hload => absurd rfl hload
    cfg := rfl
    place := rfl
    port := rfl
    stored := fun _ a => by rw [blocksStored_of_not (by simp), hrem, Nat.sub_self]; rfl
    lanes := fun hl => by simp at hl
    finished := nofun }

/-- The run of `GEN n`: after the acceptance step, as long as steps are left, it goes on through states of the run. -/
theorem run_presentGen (hp : s.ph = .idle) (hn : n < 2 ^ s.cfg.bcw) (hk : Contract s n) {j : Nat}
    (hj : j ≤ 2 + groupsLength n) :
    ∃ u, Host.Core.run core (1 + j) (presentGen s n) = .next u ∧ InRun s n u ∧ stepsLeft u + j = 2 + groupsLength n := by
  have hleft : stepsLeft (acceptGen n (takeCommand (presentGen s n))) = 2 + groupsLength n := by
    rw [stepsLeft, acceptGen_ph, acceptGen_rem]
    exact congrArg (2 + groupsLength ·) (Nat.mod_eq_of_lt hn)
  rw [Nat.add_comm 1 j, run_succ_of_step j (step_presentGen hp hn hk), ← hleft]
  exact run_of_invariant (fun _ h => h.control) (fun _ h => InRun.step hk.1 h) (inRun_accepted hn hk)
    (by rw [hleft]; exact hj)

/-- The whole run: idle with `DONE` 1, and the memory of R160. -/
theorem run_whole (hp : s.ph = .idle) (hn : n < 2 ^ s.cfg.bcw) (hk : Contract s n) :
    ∃ t, Host.Core.run core (1 + (2 + groupsLength n)) (presentGen s n) = .next t ∧ InRun s n t ∧ t.ph = .idle := by
  obtain ⟨t, ht, hinv, hleft⟩ := run_presentGen hp hn hk (le_refl _)
  refine ⟨t, ht, hinv, ?_⟩
  by_contra hb
  have := (stepsLeft_pos_iff hinv.control).2 hb
  omega

end

theorem runLength_eq (n : Nat) : runLength n = 2 + groupsLength n := by
  rw [runLength, groupsLength, Nat.add_assoc]

/-- Settles O54: the steps left tell whether the generator is busy. -/
theorem runLengthExact : Obligations.RunLengthExact := by
  intro s n hp hn hk
  rw [← runLength, runLength_eq]
  refine ⟨fun j hj => ?_, ?_⟩
  · obtain ⟨u, hu, hinv, hleft⟩ := run_presentGen hp hn hk (Nat.le_of_lt hj)
    exact ⟨u, hu, busy_of_ne_idle ((stepsLeft_pos_iff hinv.control).1 (by omega))⟩
  · obtain ⟨t, ht, hinv, hidle⟩ := run_whole hp hn hk
    exact ⟨t, ht, by simp [busy, hidle], (hinv.finished hidle).1, hinv.port⟩

/-- Settles O55: the last state of the run is idle, and `InRun` says what memory holds there. -/
theorem runComputesGen : Obligations.RunComputesGen := by
  intro s n hp hn hk
  obtain ⟨t, ht, hinv, hidle⟩ := run_whole hp hn hk
  obtain ⟨hdone, hmem⟩ := hinv.finished hidle
  exact ⟨t, runLength_eq n ▸ ht, hidle, hdone, hinv.place, hinv.cfg, hmem⟩

/-- The function of `GEN 0` stores the counter it finds. -/
theorem read_genMemory_zero (s : State) (a : Nat) : Memory.read (genMemory s 0) a = Memory.read s.mem a := by
  rw [read_genMemory, counterVec_zero]
  split
  · rw [vecBytes_storedCn_getD s (by omega)]
    congr 1
    omega
  · rfl

/-- Settles O57: a run of `GEN 0` is the acceptance and two steps. -/
theorem zeroBlocksChangeNothing : Obligations.ZeroBlocksChangeNothing := by
  intro s hp hk
  obtain ⟨t, ht, hidle, hdone, -, -, hmem⟩ := runComputesGen s 0 hp (Nat.two_pow_pos _) hk
  exact ⟨t, ht, hidle, hdone, fun a => (hmem a).trans (read_genMemory_zero s a)⟩

/-! Two runs in place (R142). -/

/-- With the counter's bytes put back, the memory after a run is that with the output blocks in place and nothing else
changed. -/
theorem read_restored {s t : State} {n : Nat} (hpl : PlacementOk s.place n) (ht : t.place = s.place)
    (hmem : ∀ a, Memory.read t.mem a = Memory.read (genMemory s n) a) (a : Nat) :
    Memory.read (memWrite t .ws 32 (memRead s .ws 32 8)).mem a = Memory.read (genBlocks s n) a := by
  obtain ⟨-, -, -, hws, -⟩ := hpl
  have hbase : spaceBase s.place .ws = s.place.wsBase := rfl
  rw [memWrite_mem, Memory.read_writeBytes, ht, memRead, Memory.readBytes_length, hbase]
  split
  · rw [Memory.readBytes_getD _ _ _ _ (by omega), read_genBlocks_other s (by omega)]
    congr 1
    omega
  · rw [hmem, read_genMemory, if_neg (by omega)]

/-- Settles O59: the second run combines each output block with the same keystream block again. -/
theorem secondRunUndoesFirst : Obligations.SecondRunUndoesFirst := by
  intro s n hp hn hk hsame
  obtain ⟨t, ht, htidle, -, htpl, htcfg, htmem⟩ := runComputesGen s n hp hn hk
  obtain ⟨u, hu⟩ : ∃ u, u = memWrite t .ws 32 (memRead s .ws 32 8) := ⟨_, rfl⟩
  have hupl : u.place = s.place := by rw [hu]; exact htpl
  have hucfg : u.cfg = s.cfg := by rw [hu]; exact htcfg
  have huidle : u.ph = .idle := by rw [hu]; exact htidle
  have humem : ∀ a, Memory.read u.mem a = Memory.read (genBlocks s n) a := by
    rw [hu]; exact read_restored hk.1 htpl htmem
  obtain ⟨hconst, hws, hinc⟩ := memRead_of_genBlocks hk.1 (le_refl n) hupl humem
  have huk : Contract u n := by
    refine ⟨hupl ▸ hk.1, ?_⟩
    have hheld : incrementHeld u = incrementHeld s := by rw [incrementHeld, incrementHeld, hinc]
    rw [← incrementHeld_iff, hheld, incrementHeld_iff]
    exact hk.2
  obtain ⟨v, hv, -, hvdone, -, -, hvmem⟩ := runComputesGen u n huidle (hucfg ▸ hn) huk
  refine ⟨t, u, v, ht, ?_, hv, hvdone, fun a h1 h2 => ?_⟩
  · rw [hu]
    exact if_neg (by simp [busy, htidle])
  · obtain ⟨i, j, hi, hj, rfl⟩ : ∃ i j, i < n ∧ j < 64 ∧ a = s.place.outBase + 64 * i + j :=
      ⟨(a - s.place.outBase) / 64, (a - s.place.outBase) % 64, by omega, by omega, by omega⟩
    obtain ⟨hblocks, -, -⟩ := genFunctionBytes u n huk.1
    have hsecond := hblocks i j hi hj
    have hfirst := read_genBlocks_block s hi hj
    rw [hupl, keystreamBlock_congr hconst hws, hsame, humem] at hsecond
    rw [hsame] at hfirst
    rw [hvmem, hsecond, hfirst, BitVec.xor_assoc, BitVec.xor_self, BitVec.xor_zero]

/-! No register carries information into a run (R26). -/

/-- Two states agree in the parameters, the spaces, the port, the counts and the loaded registers. -/
structure SameData (s s' : State) : Prop where
  cfg : s.cfg = s'.cfg
  place : s.place = s'.place
  mem : s.mem = s'.mem
  port : s.port = s'.port
  rem : s.rem = s'.rem
  off : s.off = s'.off
  sigma : s.sigma = s'.sigma
  k0 : s.k0 = s'.k0
  k1 : s.k1 = s'.k1
  cn : s.cn = s'.cn

/-- Two states that memory and phase cannot tell apart from here on: they agree in what the steps of a run still read. -/
structure SameRun (s s' : State) : Prop where
  cfg : s.cfg = s'.cfg
  place : s.place = s'.place
  mem : s.mem = s'.mem
  port : s.port = s'.port
  ph : s.ph = s'.ph
  counts : s.ph ≠ .idle → s.rem = s'.rem ∧ s.off = s'.off ∧ s.sub = s'.sub
  countdown : s.ph = .round ∨ s.ph = .emit → s.rc = s'.rc
  registers : s.ph ≠ .idle → s.ph ≠ .load → s.sigma = s'.sigma ∧ s.k0 = s'.k0 ∧ s.k1 = s'.k1 ∧ s.cn = s'.cn
  lanes : s.ph = .round ∨ s.ph = .emit → ∀ k, k < groupSize s.rem → getLane s k = getLane s' k

/-- An idle generator with a word at the port goes on exactly by accepting the `GEN` that the word is. -/
theorem step_idle_eq_next_iff {s t : State} {c : Nat} (hp : s.ph = .idle) (hport : s.port = some c) :
    step s = .next t ↔ ∃ n, decodeCmd s.cfg c = .ok (.gen n) ∧ Contract s n ∧ t = acceptGen n (takeCommand s) := by
  by_cases hc : c % 256 = 1
  · have hd : decodeCmd s.cfg c = .ok (.gen (c / 256 % 2 ^ s.cfg.bcw)) := if_pos hc
    rw [step_of_command (fetch_command hp hport hd)]
    constructor
    · intro h
      obtain ⟨-, hk, ht⟩ := execGen_eq_next.1 h
      exact ⟨_, hd, hk, ht⟩
    · rintro ⟨n, hn, hk, ht⟩
      obtain rfl : n = _ := by simpa [hd, eq_comm] using hn
      exact execGen_eq_next.2 ⟨hp, hk, ht⟩
  · obtain ⟨-, hreserved, -⟩ := stepWaitsOrRefusesByName s
    rw [hreserved c hp hport hc]
    have hd : decodeCmd s.cfg c = .error .cop := if_neg hc
    simp [hd]

section
variable {s s' t : State}

theorem SameRun.incrementOk (h : SameRun s s') (hk : IncrementOk s) : IncrementOk s' := by
  unfold IncrementOk at hk ⊢
  rw [← h.mem, ← h.place]
  exact hk

theorem SameRun.memRead (h : SameRun s s') (sp : Space) (o n : Nat) : memRead s sp o n = memRead s' sp o n := by
  rw [Machine.memRead, Machine.memRead, h.mem, h.place]

/-- Past `LOAD` the states agree in all data. -/
theorem SameRun.data (h : SameRun s s') (hp : s.ph ≠ .idle) (hload : s.ph ≠ .load) : SameData s s' := by
  obtain ⟨hrem, hoff, -⟩ := h.counts hp
  obtain ⟨hsg, hk0, hk1, hcn⟩ := h.registers hp hload
  exact ⟨h.cfg, h.place, h.mem, h.port, hrem, hoff, hsg, hk0, hk1, hcn⟩

theorem SameData.mapLanes (h : SameData s s') (lm : LaneMask) (f f' : Nat → Lane → Lane) :
    SameData (mapLanes lm f s) (mapLanes lm f' s') := by
  obtain ⟨hcfg, hplace, hmem, hport, hrem, hoff, hsg, hk0, hk1, hcn⟩ := h
  constructor <;> simpa

theorem SameData.incrementCn (h : SameData s s') : SameData (incrementCn s) (incrementCn s') :=
  { h with cn := congrArg (add64x2 · one) h.cn }

theorem SameData.countGroup (h : SameData s s') : SameData (countGroup s) (countGroup s') :=
  { h with
    rem := by simp [h.rem, h.cfg]
    off := by simp [h.rem, h.off, h.cfg] }

theorem SameData.dispatch (h : SameData s s') : SameRun (dispatch s) (dispatch s') := by
  have hph : ¬ ((Machine.dispatch s).ph = .round ∨ (Machine.dispatch s).ph = .emit) := by simp
  exact {
    cfg := by simpa using h.cfg
    place := by simpa using h.place
    mem := by simpa using h.mem
    port := by simpa using h.port
    ph := by rw [dispatch_ph, dispatch_ph, h.rem]
    counts := fun _ => by simpa using ⟨h.rem, h.off⟩
    countdown := fun h => absurd h hph
    registers := fun _ _ => by simpa using ⟨h.sigma, h.k0, h.k1, h.cn⟩
    lanes := fun h => absurd h hph }

theorem SameData.setPos (h : SameData s s') (hl : ∀ k, k < groupSize s.rem → getLane s k = getLane s' k) (p : Phase)
    (r : BitVec 4) (b : BitVec 3) : SameRun (setPos s p r b) (setPos s' p r b) where
  cfg := h.cfg
  place := h.place
  mem := h.mem
  port := h.port
  ph := rfl
  counts := fun _ => ⟨h.rem, h.off, rfl⟩
  countdown := fun _ => rfl
  registers := fun _ _ => ⟨h.sigma, h.k0, h.k1, h.cn⟩
  lanes := fun _ k hk => by rw [getLane_setPos, getLane_setPos]; exact hl k hk

theorem sameRun_complete (hcfg : s.cfg = s'.cfg) (hplace : s.place = s'.place) (hmem : s.mem = s'.mem)
    (hport : s.port = s'.port) : SameRun (complete s) (complete s') where
  cfg := hcfg
  place := hplace
  mem := hmem
  port := hport
  ph := rfl
  counts := fun h => absurd rfl h
  countdown := nofun
  registers := fun h => absurd rfl h
  lanes := nofun

/-- The same operation on the lane groups of the mask leaves them the same. -/
theorem getLane_mapLanes_same {f f' : Nat → Lane → Lane}
    (h : ∀ k, k < groupSize s.rem → f k (getLane s k) = f' k (getLane s' k)) (k : Nat)
    (hk : k < groupSize (mapLanes (maskOf s.rem) f s).rem) :
    getLane (mapLanes (maskOf s.rem) f s) k = getLane (mapLanes (maskOf s.rem) f' s') k := by
  rw [mapLanes_rem] at hk
  rw [getLane_mapLanes_maskOf _ _ hk, getLane_mapLanes_maskOf _ _ hk, h k hk]

/-- `XORST` reads the lane groups of its mask, the placement, `OFF` and memory. -/
theorem overLanes_combineLane_mem_same (lm : LaneMask) (hmem : s.mem = s'.mem) (hplace : s.place = s'.place)
    (hoff : s.off = s'.off) (h : ∀ k, k < laneCount lm → getLane s k = getLane s' k) :
    (overLanes lm combineLane s).mem = (overLanes lm combineLane s').mem := by
  cases lm with
  | l0 =>
    have h0 : s.lane0 = s'.lane0 := h 0 (by decide)
    rw [overLanes_l0_mem, overLanes_l0_mem, hmem, hplace, hoff, h0]
  | l012 =>
    have h0 : s.lane0 = s'.lane0 := h 0 (by decide)
    have h1 : s.lane1 = s'.lane1 := h 1 (by decide)
    have h2 : s.lane2 = s'.lane2 := h 2 (by decide)
    rw [overLanes_l012_mem, overLanes_l012_mem, hmem, hplace, hoff, h0, h1, h2]

theorem SameData.combine (h : SameData s s') (hl : ∀ k, k < groupSize s.rem → getLane s k = getLane s' k) :
    SameData (overLanes (maskOf s.rem) combineLane s) (overLanes (maskOf s.rem) combineLane s') := by
  have hmem := overLanes_combineLane_mem_same (maskOf s.rem) h.mem h.place h.off (by rwa [laneCount_maskOf])
  obtain ⟨hcfg, hplace, -, hport, hrem, hoff, hsg, hk0, hk1, hcn⟩ := h
  constructor <;> simpa

@[simp] theorem getLane_overLanes_combineLane (lm : LaneMask) (s : State) (k : Nat) :
    getLane (overLanes lm combineLane s) k = getLane s k := by
  cases lm with
  | l0 => exact getLane_combineLane 0 k s
  | l012 => simp only [overLanes_l012, getLane_combineLane]

/-- A running step of the one state is a running step of the other, to states that are the same again. -/
theorem SameRun.runningStep (h : SameRun s s') (hs : RunningStep s t) : ∃ t', RunningStep s' t' ∧ SameRun t t' := by
  have hph := h.ph
  cases hs with
  | load hp hsub hinc =>
    obtain ⟨hrem, hoff, hsub'⟩ := h.counts (by simp [hp])
    refine ⟨_, .load (hph ▸ hp) (hsub' ▸ hsub) (h.incrementOk hinc), SameData.dispatch ?_⟩
    have loads : ∀ sp o, bytesVec (Machine.memRead s sp o 16) = bytesVec (Machine.memRead s' sp o 16) :=
      fun sp o => congrArg bytesVec (h.memRead sp o 16)
    exact ⟨h.cfg, h.place, h.mem, h.port, hrem, hoff, loads _ _, loads _ _, loads _ _, loads _ _⟩
  | init hp hsub hrem1 =>
    obtain ⟨-, -, hsub'⟩ := h.counts (by simp [hp])
    have hd := h.data (by simp [hp]) (by simp [hp])
    refine ⟨_, .init (hph ▸ hp) (hsub' ▸ hsub) (hd.rem ▸ hrem1), ?_⟩
    rw [initLanes, initLanes, ← hd.rem]
    refine (hd.mapLanes _ _ _).setPos (getLane_mapLanes_same fun j _ => ?_) _ _ _
    rw [hd.sigma, hd.k0, hd.k1, hd.cn]
  | round hp h1 h10 hsub hrem1 =>
    obtain ⟨-, -, hsub'⟩ := h.counts (by simp [hp])
    have hrc := h.countdown (.inl hp)
    have hd := h.data (by simp [hp]) (by simp [hp])
    refine ⟨_, .round (hph ▸ hp) (hrc ▸ h1) (hrc ▸ h10) (hsub' ▸ hsub) (hd.rem ▸ hrem1), ?_⟩
    have setPos := (hd.mapLanes (maskOf s.rem) (fun _ l => roundLane s.sub.toNat l)
      (fun _ l => roundLane s.sub.toNat l)).setPos (getLane_mapLanes_same fun j hj => by rw [h.lanes (.inl hp) j hj])
    rw [advanceRound_eq, advanceRound_eq, ← hd.rem, ← hsub']
    simp only [mapLanes_sub, mapLanes_rc, ← hsub', ← hrc]
    split
    · exact setPos _ _ _
    · split <;> exact setPos _ _ _
  | feedForward hp hrc hrem1 hsub =>
    obtain ⟨-, -, hsub'⟩ := h.counts (by simp [hp])
    have hd := h.data (by simp [hp]) (by simp [hp])
    refine ⟨_, .feedForward (hph ▸ hp) (h.countdown (.inr hp) ▸ hrc) (hd.rem ▸ hrem1) (hsub' ▸ hsub), ?_⟩
    rw [← hd.rem]
    exact (hd.mapLanes _ _ _).setPos (getLane_mapLanes_same fun j hj => by rw [h.lanes (.inr hp) j hj]) _ _ _
  | combine hp hrc hrem1 hsub =>
    obtain ⟨-, -, hsub'⟩ := h.counts (by simp [hp])
    have hd := h.data (by simp [hp]) (by simp [hp])
    refine ⟨_, .combine (hph ▸ hp) (h.countdown (.inr hp) ▸ hrc) (hd.rem ▸ hrem1) (hsub' ▸ hsub), ?_⟩
    rw [← hd.rem]
    exact (hd.combine (h.lanes (.inr hp))).setPos (fun j hj => by simpa using h.lanes (.inr hp) j (by simpa using hj)) _ _ _
  | increment hp hrc hrem1 h2 hsub =>
    obtain ⟨-, -, hsub'⟩ := h.counts (by simp [hp])
    have hd := h.data (by simp [hp]) (by simp [hp])
    refine ⟨_, .increment (hph ▸ hp) (h.countdown (.inr hp) ▸ hrc) (hd.rem ▸ hrem1) (hsub' ▸ h2)
      (by rw [← hsub', ← hd.rem]; exact hsub), ?_⟩
    rw [← hsub']
    exact hd.incrementCn.setPos (h.lanes (.inr hp)) _ _ _
  | count hp hrc hrem1 hsub =>
    obtain ⟨-, -, hsub'⟩ := h.counts (by simp [hp])
    have hd := h.data (by simp [hp]) (by simp [hp])
    refine ⟨_, .count (hph ▸ hp) (h.countdown (.inr hp) ▸ hrc) (hd.rem ▸ hrem1) ?_, hd.incrementCn.countGroup.dispatch⟩
    rw [← hsub', ← hd.rem]
    exact hsub
  | writeback hp hsub =>
    obtain ⟨-, -, hsub'⟩ := h.counts (by simp [hp])
    have hd := h.data (by simp [hp]) (by simp [hp])
    refine ⟨_, .writeback (hph ▸ hp) (hsub' ▸ hsub), ?_⟩
    exact sameRun_complete hd.cfg hd.place (by rw [memWrite_mem, memWrite_mem, hd.mem, hd.place, hd.cn]) hd.port

/-- A step of the one state is matched by a step of the other. -/
theorem SameRun.step (h : SameRun s s') (hs : Machine.step s = .next t) :
    ∃ t', Machine.step s' = .next t' ∧ SameRun t t' := by
  by_cases hp : s.ph = .idle
  · have hp' : s'.ph = .idle := h.ph ▸ hp
    cases hport : s.port with
    | none =>
      rw [step_waits hp hport] at hs
      cases hs
      exact ⟨s', step_waits hp' (h.port ▸ hport), h⟩
    | some c =>
      obtain ⟨n, hn, ⟨hpl, hinc⟩, rfl⟩ := (step_idle_eq_next_iff hp hport).1 hs
      have hk' : Contract s' n := ⟨h.place ▸ hpl, h.incrementOk hinc⟩
      refine ⟨_, (step_idle_eq_next_iff hp' (h.port ▸ hport)).2 ⟨n, h.cfg ▸ hn, hk', rfl⟩, ?_⟩
      exact {
        cfg := h.cfg
        place := h.place
        mem := h.mem
        port := rfl
        ph := rfl
        counts := fun _ => by simp [h.cfg]
        countdown := nofun
        registers := fun _ hload => absurd rfl hload
        lanes := nofun }
  · obtain ⟨t', ht', hsame⟩ := h.runningStep ((step_eq_next_iff hp).1 hs)
    exact ⟨t', (step_eq_next_iff (h.ph ▸ hp)).2 ht', hsame⟩

theorem SameRun.run (h : SameRun s s') (k : Nat) (hs : Host.Core.run core k s = .next t) :
    ∃ t', Host.Core.run core k s' = .next t' ∧ SameRun t t' := by
  induction k generalizing s s' with
  | zero =>
    rw [run_zero] at hs
    cases hs
    exact ⟨s', rfl, h⟩
  | succ k ih =>
    obtain ⟨u, hu⟩ : ∃ u, Machine.step s = .next u := step_of_run_succ hs
    rw [run_succ_of_step k hu] at hs
    obtain ⟨u', hu', hsame⟩ := h.step hu
    rw [run_succ_of_step k hu']
    exact ih hsame hs

end

/-- Settles O58: the presented states agree in what a run reads of an idle state. -/
theorem noStateCarriedIntoRun : Obligations.NoStateCarriedIntoRun := by
  intro s s' t n k hp hp' hcfg hplace hmem hrun
  have hsame : SameRun (presentGen s n) (presentGen s' n) := {
    cfg := hcfg
    place := hplace
    mem := hmem
    port := rfl
    ph := hp.trans hp'.symm
    counts := fun h => absurd hp h
    countdown := by rintro (h | h) <;> cases hp.symm.trans h
    registers := fun h => absurd hp h
    lanes := by rintro (h | h) <;> cases hp.symm.trans h }
  obtain ⟨t', ht', h⟩ := hsame.run k hrun
  exact ⟨t', ht', h.mem, h.ph⟩

end Sys2Proof.Machine
end
